-- ==== Sys2Proof/Word.lean ====
section
/-! DEFINITION. The word types of the core and `word(n)` (00_scope.md R9, R11). -/

namespace Sys2Proof

/-- A Word: 32 bits (R11). -/
abbrev Word := BitVec 32

/-- One byte of the byte view of memory (R40 counts addresses in bytes). -/
abbrev Byte := BitVec 8

/-- A general register's index, `0 .. 31`; no other index can be named (R20, R26). -/
abbrev RegIdx := Fin 32

/-- `word(n)`: the Word whose unsigned value is `n mod 2^32` (R11). -/
def word (n : Nat) : Word := BitVec.ofNat 32 n

end Sys2Proof
end

