-- ==== Sys2Proof/Machine/Flags.lean ====
section
/-! DEFINITION. This hardware has no flags and no status register (10_state.md R33). The two one-bit outcomes it
computes are here: the ALU's EQ output, used by the next-pc selector, and the signed comparison of SLT, which
goes to a general register (41_alu.md R90, R98). -/

namespace Sys2Proof.Machine

/-- The EQ output: all 32 bits agree (R90, R134). -/
def aluEq (a b : Word) : Bool := a == b

/-- `s(a) < s(b)`, exact for every pair (R98). -/
def signedLess (a b : Word) : Bool := decide (a.toInt < b.toInt)

end Sys2Proof.Machine
end

