-- ==== Sys2Proof/Config.lean ====
section
/-! DEFINITION. The implementation parameters of 00_scope.md R9, and the two conventions of the model
that are no part of the machine's state. -/

namespace Sys2Proof

/-- How `div` rounds its quotient (R9 `DIV_ROUNDING`, R113). -/
inductive DivRounding where
  /-- toward zero: the value this hardware has -/
  | trunc
  /-- toward minus infinity: the alternative a model may take as an argument -/
  | floor
  deriving DecidableEq, Repr

/-- The order in which a word's bytes stand in the byte view of memory. -/
inductive ByteOrder where
  /-- most significant byte at the lowest address -/
  | big
  /-- least significant byte at the lowest address -/
  | little
  deriving DecidableEq, Repr

/-- `TEXT_BASE` (R9), the reset vector (R182). -/
def Config.textBase : Nat := 0x00400000

/-- `DATA_BASE` (R9): a convention no rule depends on (20_memory.md R49). -/
def Config.dataBase : Nat := 0x10000000

/-- `STACK_BASE` (R9): a convention no rule depends on (20_memory.md R49). -/
def Config.stackBase : Nat := 0x7ffffffc

/-- The number of byte addresses: the whole 32-bit space exists (R9 `MEM_WORDS`, 20_memory.md R40, R51). -/
def Config.addressSpace : Nat := 2 ^ 32

/-- `DIV_ROUNDING = TRUNC` (R9). DESIGN CHOICE of the spec (D5), log entry 13, unsafe. -/
def Config.divRounding : DivRounding := .trunc

/-- The byte order of the model's byte view. No access of this hardware can observe it (20_memory.md R46).
DESIGN CHOICE, log entry 2: safe for every claim about words, unsafe for a claim that says which byte of a
word stands at which byte address. -/
def Config.byteOrder : ByteOrder := .big

/-- What a byte nothing has written reads as (20_memory.md R40: "Unwritten addresses read as 0"). -/
def Config.unlistedByte : Byte := 0

end Sys2Proof
end

