-- ==== Sys2Proof/Syntax.lean ====
section
/-! DEFINITION. The 19 instructions (00_scope.md R2), with the operands the decoder hands on
(30_encoding.md R71). Nothing here gives a meaning. -/

namespace Sys2Proof

/-- A decoded instruction: one constructor per row of spec/opcode_table.json, operands in R71's order. -/
inductive Instr where
  /-- `sll rd, rt, shamt` (R97) -/
  | sll (rd rt : RegIdx) (shamt : BitVec 5)
  /-- `jr rs` (R133) -/
  | jr (rs : RegIdx)
  /-- `mflo rd` (R112) -/
  | mflo (rd : RegIdx)
  /-- `mult rs, rt` (R110) -/
  | mult (rs rt : RegIdx)
  /-- `div rs, rt` (R111) -/
  | div (rs rt : RegIdx)
  /-- `add rd, rs, rt` (R91) -/
  | add (rd rs rt : RegIdx)
  /-- `sub rd, rs, rt` (R92) -/
  | sub (rd rs rt : RegIdx)
  /-- `and rd, rs, rt` (R96) -/
  | and (rd rs rt : RegIdx)
  /-- `or rd, rs, rt` (R94) -/
  | or (rd rs rt : RegIdx)
  /-- `xor rd, rs, rt` (R93) -/
  | xor (rd rs rt : RegIdx)
  /-- `nor rd, rs, rt` (R95) -/
  | nor (rd rs rt : RegIdx)
  /-- `slt rd, rs, rt` (R98) -/
  | slt (rd rs rt : RegIdx)
  /-- `j target` (R136) -/
  | j (target : BitVec 26)
  /-- `jal target` (R137) -/
  | jal (target : BitVec 26)
  /-- `beq rs, rt, offset` (R134) -/
  | beq (rs rt : RegIdx) (imm : BitVec 16)
  /-- `bne rs, rt, offset` (R135) -/
  | bne (rs rt : RegIdx) (imm : BitVec 16)
  /-- `addi rt, rs, imm` (R99) -/
  | addi (rt rs : RegIdx) (imm : BitVec 16)
  /-- `lw rt, imm(rs)` (R120) -/
  | lw (rt rs : RegIdx) (imm : BitVec 16)
  /-- `sw rt, imm(rs)` (R121) -/
  | sw (rt rs : RegIdx) (imm : BitVec 16)
  deriving DecidableEq, Repr

/-- The mnemonics of the closed list (R2). -/
inductive Mnemonic where
  | sll | jr | mflo | mult | div | add | sub | and | or | xor | nor | slt
  | j | jal | beq | bne | addi | lw | sw
  deriving DecidableEq, Repr

/-- Which of the 19 an instruction is. -/
def Instr.mnemonic : Instr → Mnemonic
  | .sll .. => .sll
  | .jr .. => .jr
  | .mflo .. => .mflo
  | .mult .. => .mult
  | .div .. => .div
  | .add .. => .add
  | .sub .. => .sub
  | .and .. => .and
  | .or .. => .or
  | .xor .. => .xor
  | .nor .. => .nor
  | .slt .. => .slt
  | .j .. => .j
  | .jal .. => .jal
  | .beq .. => .beq
  | .bne .. => .bne
  | .addi .. => .addi
  | .lw .. => .lw
  | .sw .. => .sw

end Sys2Proof
end

