-- ==== Sys2Proof/WellFormed.lean ====
section
/-! DEFINITION. What the core and its host may be given: a well-formed instruction and a program that fits. -/

namespace Sys2Proof

/-- A well-formed instruction. There is nothing left to check: every field has exactly the width of its
encoding (30_encoding.md R61 to R63, R66, R69), every value of a field is legal, and the decoder has no
reserved operand values (R73). -/
def Instr.wellFormed : Instr → Bool := fun _ => true

/-- The size precondition of `load_program`: `TEXT_BASE + 4*n <= 2^32` (70_reset_and_hazards.md R180, R189).
DESIGN CHOICE of the spec (D22), log entry 9, safe. -/
def programFits (words : List Word) : Bool :=
  decide (Config.textBase + 4 * words.length ≤ Config.addressSpace)

end Sys2Proof
end

