-- ==== Sys2Proof/Decode.lean ====
section
/-! DEFINITION. The instruction encoding (30_encoding.md R60 to R73): bit fields, the total decoder, the
encoder written from the same format tables, the opcode table row by row, and a word's bytes. -/

namespace Sys2Proof

/-! ### Bit fields (R15, R61 to R63) -/

/-- `op = w[31:26]`. -/
def opField (w : Word) : BitVec 6 := w.extractLsb' 26 6

/-- `funct = w[5:0]`. -/
def functField (w : Word) : BitVec 6 := w.extractLsb' 0 6

/-- `shamt = w[10:6]`. -/
def shamtField (w : Word) : BitVec 5 := w.extractLsb' 6 5

/-- `imm16 = w[15:0]`. -/
def immField (w : Word) : BitVec 16 := w.extractLsb' 0 16

/-- `target26 = w[25:0]`. -/
def targetField (w : Word) : BitVec 26 := w.extractLsb' 0 26

/-- The register a 5-bit field names (R26, R66). -/
def regOfField (f : BitVec 5) : RegIdx := f.toFin

/-- The 5-bit field that names a register (R66). -/
def fieldOfReg (r : RegIdx) : BitVec 5 := BitVec.ofFin r

/-- `rs = w[25:21]`. -/
def rsField (w : Word) : RegIdx := regOfField (w.extractLsb' 21 5)

/-- `rt = w[20:16]`. -/
def rtField (w : Word) : RegIdx := regOfField (w.extractLsb' 16 5)

/-- `rd = w[15:11]`. -/
def rdField (w : Word) : RegIdx := regOfField (w.extractLsb' 11 5)

/-! ### The decoder (R71) -/

/-- What the decoder answers: one of the 19 instructions, or the variant for every other word. -/
inductive Decoded where
  | instr (i : Instr)
  /-- `UNSUPPORTED w`: an illegal word, rejected by this name and carrying the word (R72) -/
  | unsupported (w : Word)
  deriving DecidableEq, Repr

/-- The instruction of an opcode-0 word, by its function code (R65, R71).
The numbers but 0x12 and 0x18 are PRESUMED (D10, log entry 18), unsafe. -/
def decodeSpecial (w : Word) : Decoded :=
  match functField w with
  | 0x00#6 => .instr (.sll (rdField w) (rtField w) (shamtField w))
  | 0x08#6 => .instr (.jr (rsField w))
  | 0x12#6 => .instr (.mflo (rdField w))
  | 0x18#6 => .instr (.mult (rsField w) (rtField w))
  | 0x1A#6 => .instr (.div (rsField w) (rtField w))
  | 0x20#6 => .instr (.add (rdField w) (rsField w) (rtField w))
  | 0x22#6 => .instr (.sub (rdField w) (rsField w) (rtField w))
  | 0x24#6 => .instr (.and (rdField w) (rsField w) (rtField w))
  | 0x25#6 => .instr (.or (rdField w) (rsField w) (rtField w))
  | 0x26#6 => .instr (.xor (rdField w) (rsField w) (rtField w))
  | 0x27#6 => .instr (.nor (rdField w) (rsField w) (rtField w))
  | 0x2A#6 => .instr (.slt (rdField w) (rsField w) (rtField w))
  | _ => .unsupported w

/-- `decode`, pure and total on every word (R71); unused fields are not looked at (R70).
The opcodes of `jal`, `bne`, `lw`, `sw` are PRESUMED (D10, log entry 18), unsafe. -/
def decode (w : Word) : Decoded :=
  match opField w with
  | 0x00#6 => decodeSpecial w
  | 0x02#6 => .instr (.j (targetField w))
  | 0x03#6 => .instr (.jal (targetField w))
  | 0x04#6 => .instr (.beq (rsField w) (rtField w) (immField w))
  | 0x05#6 => .instr (.bne (rsField w) (rtField w) (immField w))
  | 0x08#6 => .instr (.addi (rtField w) (rsField w) (immField w))
  | 0x23#6 => .instr (.lw (rtField w) (rsField w) (immField w))
  | 0x2B#6 => .instr (.sw (rtField w) (rsField w) (immField w))
  | _ => .unsupported w

/-! ### The encoder -/

/-- An R-type word (R61). -/
def rType (rs rt rd : RegIdx) (shamt : BitVec 5) (funct : BitVec 6) : Word :=
  0#6 ++ fieldOfReg rs ++ fieldOfReg rt ++ fieldOfReg rd ++ shamt ++ funct

/-- An I-type word (R62). -/
def iType (op : BitVec 6) (rs rt : RegIdx) (imm : BitVec 16) : Word :=
  op ++ fieldOfReg rs ++ fieldOfReg rt ++ imm

/-- A J-type word (R63). -/
def jType (op : BitVec 6) (target : BitVec 26) : Word := op ++ target

/-- The word of an instruction, unused fields 0 as R75's conventional syntax has them (R64, R65). -/
def encode : Instr → Word
  | .sll rd rt shamt => rType 0 rt rd shamt 0x00
  | .jr rs => rType rs 0 0 0 0x08
  | .mflo rd => rType 0 0 rd 0 0x12
  | .mult rs rt => rType rs rt 0 0 0x18
  | .div rs rt => rType rs rt 0 0 0x1A
  | .add rd rs rt => rType rs rt rd 0 0x20
  | .sub rd rs rt => rType rs rt rd 0 0x22
  | .and rd rs rt => rType rs rt rd 0 0x24
  | .or rd rs rt => rType rs rt rd 0 0x25
  | .xor rd rs rt => rType rs rt rd 0 0x26
  | .nor rd rs rt => rType rs rt rd 0 0x27
  | .slt rd rs rt => rType rs rt rd 0 0x2A
  | .j target => jType 0x02 target
  | .jal target => jType 0x03 target
  | .beq rs rt imm => iType 0x04 rs rt imm
  | .bne rs rt imm => iType 0x05 rs rt imm
  | .addi rt rs imm => iType 0x08 rs rt imm
  | .lw rt rs imm => iType 0x23 rs rt imm
  | .sw rt rs imm => iType 0x2B rs rt imm

/-- The bits of a word an instruction's decoding looks at: all but the ignored fields of R70's table. -/
def Instr.usedBits : Instr → Word
  | .sll .. => 0xFC1FFFFF
  | .jr .. => 0xFFE0003F
  | .mflo .. => 0xFC00F83F
  | .mult .. => 0xFFFF003F
  | .div .. => 0xFFFF003F
  | .add .. => 0xFFFFF83F
  | .sub .. => 0xFFFFF83F
  | .and .. => 0xFFFFF83F
  | .or .. => 0xFFFFF83F
  | .xor .. => 0xFFFFF83F
  | .nor .. => 0xFFFFF83F
  | .slt .. => 0xFFFFF83F
  | .j .. => 0xFFFFFFFF
  | .jal .. => 0xFFFFFFFF
  | .beq .. => 0xFFFFFFFF
  | .bne .. => 0xFFFFFFFF
  | .addi .. => 0xFFFFFFFF
  | .lw .. => 0xFFFFFFFF
  | .sw .. => 0xFFFFFFFF

/-! ### The opcode table as data -/

/-- One row of spec/opcode_table.json: a word is the row's instruction when its `mask` bits are `pattern`. -/
structure OpcodeRow where
  mnemonic : Mnemonic
  mask : Word
  pattern : Word
  deriving DecidableEq, Repr

/-- The row of each mnemonic, its match and mask written out from the table. -/
def opcodeRow : Mnemonic → OpcodeRow
  | .sll => ⟨.sll, 0xFC00003F, 0x00000000⟩
  | .jr => ⟨.jr, 0xFC00003F, 0x00000008⟩
  | .mflo => ⟨.mflo, 0xFC00003F, 0x00000012⟩
  | .mult => ⟨.mult, 0xFC00003F, 0x00000018⟩
  | .div => ⟨.div, 0xFC00003F, 0x0000001A⟩
  | .add => ⟨.add, 0xFC00003F, 0x00000020⟩
  | .sub => ⟨.sub, 0xFC00003F, 0x00000022⟩
  | .and => ⟨.and, 0xFC00003F, 0x00000024⟩
  | .or => ⟨.or, 0xFC00003F, 0x00000025⟩
  | .xor => ⟨.xor, 0xFC00003F, 0x00000026⟩
  | .nor => ⟨.nor, 0xFC00003F, 0x00000027⟩
  | .slt => ⟨.slt, 0xFC00003F, 0x0000002A⟩
  | .j => ⟨.j, 0xFC000000, 0x08000000⟩
  | .jal => ⟨.jal, 0xFC000000, 0x0C000000⟩
  | .beq => ⟨.beq, 0xFC000000, 0x10000000⟩
  | .bne => ⟨.bne, 0xFC000000, 0x14000000⟩
  | .addi => ⟨.addi, 0xFC000000, 0x20000000⟩
  | .lw => ⟨.lw, 0xFC000000, 0x8C000000⟩
  | .sw => ⟨.sw, 0xFC000000, 0xAC000000⟩

/-- A word has a row's fixed bits. -/
def OpcodeRow.selects (row : OpcodeRow) (w : Word) : Prop := w &&& row.mask = row.pattern

/-! ### A word's bytes, and decoding bytes -/

/-- Byte `k` (0 at the lowest address) of a word. The order is unobservable (R46); log entry 2. -/
def byteOfWord (o : ByteOrder) (v : Word) (k : Nat) : Byte :=
  match o with
  | .big => v.extractLsb' (8 * (3 - k)) 8
  | .little => v.extractLsb' (8 * k) 8

/-- The word whose bytes stand in the given order from the lowest address. -/
def wordOfBytes (o : ByteOrder) (b0 b1 b2 b3 : Byte) : Word :=
  match o with
  | .big => b0 ++ b1 ++ b2 ++ b3
  | .little => b3 ++ b2 ++ b1 ++ b0

/-- What decoding a list of bytes answers. -/
inductive DecodedBytes where
  /-- an instruction and the bytes after it -/
  | instr (i : Instr) (rest : List Byte)
  /-- an illegal word (R72) -/
  | unsupported (w : Word)
  /-- fewer than the four bytes every instruction has (R60) -/
  | tooShort
  deriving DecidableEq, Repr

/-- Decode the first instruction of a list of bytes, total on every list. -/
def decodeBytes : List Byte → DecodedBytes
  | b0 :: b1 :: b2 :: b3 :: rest =>
    match decode (wordOfBytes Config.byteOrder b0 b1 b2 b3) with
    | .instr i => .instr i rest
    | .unsupported w => .unsupported w
  | _ => .tooShort

/-- The 32-bit word of `nbits` table bits `w`; every bit from `nbits` up is 0. -/
def tableWord (nbits w : Nat) : Word := word (w % 2 ^ nbits)

/-- The bytes of a word as memory holds them, lowest address first. -/
def bytesOfWord (v : Word) : List Byte :=
  [byteOfWord Config.byteOrder v 0, byteOfWord Config.byteOrder v 1,
   byteOfWord Config.byteOrder v 2, byteOfWord Config.byteOrder v 3]

/-- The instruction the decoder reads from table bits laid out in memory; none where it refuses. -/
def decodeTableWord (nbits w : Nat) : Option Instr :=
  match decodeBytes (bytesOfWord (tableWord nbits w)) with
  | .instr i _ => some i
  | .unsupported _ => none
  | .tooShort => none

end Sys2Proof
end

