-- ==== Sys2Proof/Machine/Operands.lean ====
section
/-! DEFINITION. Operand forms and targets: the sign-extended immediate, the one data addressing mode, branch
and jump targets, the link (30_encoding.md R67 to R69, 43_loadstore.md R122, 44_control.md R131, R136, R137).
Every sum wraps modulo 2^32 (DESIGN CHOICE of the spec for pc and addresses, D12, log entry 20). -/

namespace Sys2Proof.Machine

/-- `$ra`, the register `jal` links through (10_state.md R22, R23). -/
def regRa : RegIdx := 31

/-- `simm = sext_32(imm16)` (R15, R67). -/
def simm (imm : BitVec 16) : Word := imm.signExtend 32

/-- `boff = simm << 2` (R67). -/
def branchOffset (imm : BitVec 16) : Word := simm imm <<< 2

/-- `pc + 4` (40_cycle.md R85): the next instruction in sequence and the link of `jal` (R137). -/
def pcPlus4 (pc : Word) : Word := pc + 4

/-- `btarget = pc + 4 + boff`, from the address of the branch (R131, 90_conflicts.md C1). -/
def branchTarget (pc : Word) (imm : BitVec 16) : Word := pcPlus4 pc + branchOffset imm

/-- `jtarget = {pc[31:28], target26, 00}`, the top four bits those of the jump itself (R68; D11, log entry 19). -/
def jumpTarget (pc : Word) (target : BitVec 26) : Word := pc.extractLsb' 28 4 ++ target ++ 0#2

/-- `ea = base + sext_32(imm16)`, unscaled (R122). -/
def effectiveAddress (base : Word) (imm : BitVec 16) : Word := base + simm imm

/-- The `b` input of an SLL: the shift amount as a Word (R69, 30_encoding.md R74). -/
def shamtOperand (shamt : BitVec 5) : Word := shamt.zeroExtend 32

/-- `a[1:0] = 00` (20_memory.md R42, R47). -/
def aligned (a : Word) : Bool := a.extractLsb' 0 2 == 0#2

end Sys2Proof.Machine
end

