-- ==== Sys2Proof/Machine/State.lean ====
section
/-! DEFINITION. The machine state of 10_state.md R34, its reset value (R35, 70_reset_and_hazards.md R181),
and the reasons a step can give no next state. -/

namespace Sys2Proof.Machine

/-- The execution status (R30). -/
inductive Status where
  | running
  | halted
  deriving DecidableEq, Repr

/-- Why the machine halted (R31, 60_exceptions.md R151). -/
inductive HaltCause where
  /-- `NONE`: not halted -/
  | none
  /-- `END`: fetch outside the loaded text, the normal end -/
  | ended
  /-- `DECODE_ERROR` -/
  | decodeError
  /-- `ALIGNMENT_ERROR` -/
  | alignmentError
  /-- `DIVISION_BY_ZERO_ERROR` -/
  | divisionByZeroError
  /-- `OUT_OF_RANGE_ERROR`: never raised (R156) -/
  | outOfRangeError
  deriving DecidableEq, Repr

/-- The halt record (R31). A field with a valid bit is an Option: `none` is an invalid field, whose
32 bits may hold any value (log entry 3, safe). -/
structure HaltRecord where
  cause : HaltCause
  faultPc : Word
  faultWord : Option Word
  faultAddr : Option Word
  deriving DecidableEq, Repr

/-- Memory in its byte view (20_memory.md R40): address and byte, addresses strictly rising, no entry equal to
what an unlisted address reads as, every address below `2^32` (`Memory.wf`). -/
abbrev Memory := List Host.Cell

/-- The machine state (R34). -/
structure State where
  /-- the cells of `x[0] .. x[31]` (R20); cell 0 is never read (R21, R27), log entry 7 -/
  regs : Vector Word 32
  /-- HI (R28) -/
  hi : Word
  /-- LO (R28) -/
  lo : Word
  /-- the program counter (R29) -/
  pc : Word
  /-- the one memory of instructions and data (R40, R41) -/
  mem : Memory
  /-- RUNNING or HALTED (R30) -/
  status : Status
  /-- the halt record (R31) -/
  halt : HaltRecord
  /-- the number of words the last `load_program` wrote (R32) -/
  textWords : Nat
  deriving DecidableEq, Repr

/-- The record of a machine that has not halted (R35, R180). `fault_pc` is 0: R35 says "invalid or 0",
DESIGN CHOICE, log entry 4, unsafe. -/
def HaltRecord.clear : HaltRecord :=
  { cause := .none, faultPc := 0, faultWord := Option.none, faultAddr := Option.none }

/-- The machine at power-on: the state of `load_program([])` (R35, R181). -/
def State.reset : State where
  regs := Vector.replicate 32 0
  hi := 0
  lo := 0
  pc := word Config.textBase
  mem := []
  status := .running
  halt := HaltRecord.clear
  textWords := 0

/-- Why a step has no next state. An error of the program is none of these: it halts the machine, which is a
next state (60_exceptions.md R152, log entry 1). -/
inductive Fault where
  /-- raised by `step` alone, on a HALTED machine, which has no step (40_cycle.md R80, R86); safe: the model
  stops where the hardware does nothing -/
  | halted
  deriving DecidableEq, Repr

/-- A refusal. No instruction of this model refuses. -/
inductive Refusal where
  /-- raised by an arm of `exec` that has no meaning yet, of which there is none; safe -/
  | notModelled (mnemonic : String)
  deriving DecidableEq, Repr

end Sys2Proof.Machine
end

