-- ==== Sys2Proof/Machine/Ops.lean ====
section
/-! DEFINITION. The shared operations: memory by bytes and by words, the register file, HI/LO and pc, fetching,
halting, and `load_program`, the only way out of a halt. -/

namespace Sys2Proof.Machine

/-! ### Memory -/

/-- The byte at an address; an unlisted one reads as 0 (20_memory.md R40). -/
def Memory.readByte : Memory → Nat → Byte
  | [], _ => Config.unlistedByte
  | (b, v) :: m, a => if a = b then v else Memory.readByte m a

/-- Put a byte in its place among rising addresses. -/
def Memory.insertByte : Memory → Nat → Byte → Memory
  | [], a, v => [(a, v)]
  | (b, u) :: m, a, v => if a < b then (a, v) :: (b, u) :: m else (b, u) :: Memory.insertByte m a v

/-- Write one byte, keeping the canonical form: writing what an unlisted address reads as removes the entry. -/
def Memory.writeByte (m : Memory) (a : Nat) (v : Byte) : Memory :=
  let others := m.filter (fun c => c.1 != a)
  if v = Config.unlistedByte then others else Memory.insertByte others a v

/-- The canonical form of the entries at or above `low`. -/
def Memory.wfFrom : Nat → Memory → Bool
  | _, [] => true
  | low, (a, v) :: m =>
    decide (low ≤ a) && decide (a < Config.addressSpace) && decide (v ≠ Config.unlistedByte) &&
      Memory.wfFrom (a + 1) m

/-- The canonical form: addresses strictly rising and in the address space, no entry equal to what an unlisted
address reads as. -/
def Memory.wf (m : Memory) : Bool := Memory.wfFrom 0 m

/-- The lowest byte address of the word `mem[a[31:2]]` (20_memory.md R40). -/
def wordBase (a : Word) : Nat := 4 * (a.extractLsb' 2 30).toNat

/-- `mem[a[31:2]]` (R40, R45): `a[1:0]` is not looked at. -/
def Memory.loadWord (o : ByteOrder) (m : Memory) (a : Word) : Word :=
  wordOfBytes o (Memory.readByte m (wordBase a)) (Memory.readByte m (wordBase a + 1))
    (Memory.readByte m (wordBase a + 2)) (Memory.readByte m (wordBase a + 3))

/-- `mem[a[31:2]] <- v`, all 32 bits (R43, R45). -/
def Memory.storeWord (o : ByteOrder) (m : Memory) (a : Word) (v : Word) : Memory :=
  Memory.writeByte (Memory.writeByte (Memory.writeByte (Memory.writeByte m
    (wordBase a) (byteOfWord o v 0)) (wordBase a + 1) (byteOfWord o v 1))
    (wordBase a + 2) (byteOfWord o v 2)) (wordBase a + 3) (byteOfWord o v 3)

/-- `raise Halt(cause, info)`: the cause, and the misaligned address where there is one (00_scope.md R13). -/
structure Raise where
  cause : HaltCause
  faultAddr : Option Word
  deriving DecidableEq, Repr

/-- The raise of a misaligned access to `a` (R42, R43). -/
def raiseAlignment (a : Word) : Raise := { cause := .alignmentError, faultAddr := some a }

/-- `MemRead(a, 4)` (R42). -/
def memRead (m : Memory) (a : Word) : Except Raise Word :=
  if aligned a then .ok (Memory.loadWord Config.byteOrder m a) else .error (raiseAlignment a)

/-- `MemWrite(a, 4, v)` (R43). -/
def memWrite (m : Memory) (a : Word) (v : Word) : Except Raise Memory :=
  if aligned a then .ok (Memory.storeWord Config.byteOrder m a v) else .error (raiseAlignment a)

/-! ### Registers -/

/-- `x[i]`: index 0 reads as 0 (10_state.md R21, read port of R27). -/
def State.reg (s : State) (r : RegIdx) : Word := if r = 0 then 0 else s.regs[r.val]

/-- `x[i] <- v`: a write to index 0 is discarded (R21, write port of R27). -/
def State.setReg (s : State) (r : RegIdx) (v : Word) : State :=
  if r = 0 then s else { s with regs := s.regs.set r.val v r.isLt }

/-- `hi <- vh; lo <- vl` (R28). -/
def State.setHiLo (s : State) (vh vl : Word) : State := { s with hi := vh, lo := vl }

/-- `pc <- target` (00_scope.md R13). -/
def State.setPc (s : State) (target : Word) : State := { s with pc := target }

/-- The memory replaced by the one a completed `MemWrite` left. -/
def State.setMem (s : State) (m : Memory) : State := { s with mem := m }

/-- `pc <- pc + 4` (40_cycle.md R85). -/
def State.advance (s : State) : State := s.setPc (pcPlus4 s.pc)

/-! ### Halting, the machine's only exception (60_exceptions.md R150, R152) -/

/-- Take a halt: status and record change, nothing else does; `fault_pc` is the pc of this cycle (R152, R159;
pc kept by D13, log entry 21). -/
def State.haltWith (s : State) (r : Raise) (w : Option Word) : State :=
  { s with
    status := .halted
    halt := { cause := r.cause, faultPc := s.pc, faultWord := w, faultAddr := r.faultAddr } }

/-- The word of the executing instruction: during execute, pc is its address (10_state.md R29) and memory is as
fetch read it (40_cycle.md R84). DEDUCED, log entry 5, safe. -/
def State.instrWord (s : State) : Word := Memory.loadWord Config.byteOrder s.mem s.pc

/-- A halt raised by an instruction: the record gets the fetched word (R86, R151). -/
def State.haltInstr (s : State) (r : Raise) : State := s.haltWith r (some s.instrWord)

/-- Words stored one after another from a byte address (R180). -/
def storeWords (m : Memory) (a : Nat) : List Word → Memory
  | [] => m
  | w :: ws => storeWords (Memory.storeWord Config.byteOrder m (word a) w) (a + 4) ws

/-- `load_program(words)`: the reset, and the only return from HALTED (70_reset_and_hazards.md R180;
60_exceptions.md R160). The whole state is replaced; a program that does not fit is refused (R189). -/
def loadProgram (words : List Word) : Option State :=
  if programFits words then
    some { State.reset with mem := storeWords [] Config.textBase words, textWords := words.length }
  else none

/-! ### Fetch (40_cycle.md R81) -/

/-- The pc lies in the loaded text `[TEXT_BASE, TEXT_BASE + 4*text_words)` (10_state.md R32). -/
def State.inText (s : State) : Bool :=
  decide (Config.textBase ≤ s.pc.toNat ∧ s.pc.toNat < Config.textBase + 4 * s.textWords)

/-- The word at pc, or the raise of a misaligned pc, or else of one outside the text (R81; the order is D19,
log entry 26). -/
def State.fetch (s : State) : Except Raise Word :=
  if aligned s.pc then
    if s.inText then .ok (Memory.loadWord Config.byteOrder s.mem s.pc)
    else .error { cause := .ended, faultAddr := none }
  else .error (raiseAlignment s.pc)

/-! ### Ends of an instruction -/

/-- The ordinary end of a register-writing instruction: `x[d] <- v; pc <- pc + 4` (R84, R85). -/
def writeBack (d : RegIdx) (v : Word) (s : State) : Host.Outcome State Fault Refusal :=
  .next (s.setReg d v).advance

/-- The end of a control transfer: `pc <- target` (40_cycle.md R87, R88). -/
def redirect (target : Word) (s : State) : Host.Outcome State Fault Refusal := .next (s.setPc target)

end Sys2Proof.Machine
end

