-- ==== Sys2Proof/Machine/Alu.lean ====
section
/-! DEFINITION. The ALU and its nine instructions (41_alu.md R90 to R99). Nothing here raises; every result is
exact modulo 2^32. -/

namespace Sys2Proof.Machine

/-- The operations of R90's table that give a Word. -/
inductive AluOp where
  | add | sub | and | or | xor | nor | slt | sll
  deriving DecidableEq, Repr

/-- `alu(op, a, b)` (R90). The bitwise meanings are PRESUMED by the spec (log entry 28). -/
def alu (op : AluOp) (a b : Word) : Word :=
  match op with
  | .add => a + b
  | .sub => a - b
  | .and => a &&& b
  | .or => a ||| b
  | .xor => a ^^^ b
  | .nor => ~~~(a ||| b)
  | .slt => if signedLess a b then 1 else 0
  | .sll => a <<< (b.extractLsb' 0 5).toNat

/-- The register-register form `x[rd] <- alu(op, x[rs], x[rt])` of R91 to R96 and R98. -/
def aluRegReg (op : AluOp) (rd rs rt : RegIdx) (s : State) : Host.Outcome State Fault Refusal :=
  writeBack rd (alu op (s.reg rs) (s.reg rt)) s

/-- `add rd, rs, rt` (R91). -/
def execAdd (rd rs rt : RegIdx) (s : State) : Host.Outcome State Fault Refusal := aluRegReg .add rd rs rt s

/-- `sub rd, rs, rt` (R92). -/
def execSub (rd rs rt : RegIdx) (s : State) : Host.Outcome State Fault Refusal := aluRegReg .sub rd rs rt s

/-- `xor rd, rs, rt` (R93). -/
def execXor (rd rs rt : RegIdx) (s : State) : Host.Outcome State Fault Refusal := aluRegReg .xor rd rs rt s

/-- `or rd, rs, rt` (R94). -/
def execOr (rd rs rt : RegIdx) (s : State) : Host.Outcome State Fault Refusal := aluRegReg .or rd rs rt s

/-- `nor rd, rs, rt` (R95). -/
def execNor (rd rs rt : RegIdx) (s : State) : Host.Outcome State Fault Refusal := aluRegReg .nor rd rs rt s

/-- `and rd, rs, rt` (R96). -/
def execAnd (rd rs rt : RegIdx) (s : State) : Host.Outcome State Fault Refusal := aluRegReg .and rd rs rt s

/-- `sll rd, rt, shamt` (R97). -/
def execSll (rd rt : RegIdx) (shamt : BitVec 5) (s : State) : Host.Outcome State Fault Refusal :=
  writeBack rd (alu .sll (s.reg rt) (shamtOperand shamt)) s

/-- `slt rd, rs, rt` (R98). -/
def execSlt (rd rs rt : RegIdx) (s : State) : Host.Outcome State Fault Refusal := aluRegReg .slt rd rs rt s

/-- `addi rt, rs, imm` (R99). -/
def execAddi (rt rs : RegIdx) (imm : BitVec 16) (s : State) : Host.Outcome State Fault Refusal :=
  writeBack rt (alu .add (s.reg rs) (simm imm)) s

end Sys2Proof.Machine
end

