-- ==== Sys2Proof/Machine/Control.lean ====
section
/-! DEFINITION. Control transfer (44_control.md R130 to R137). There are no delay slots (40_cycle.md R88). -/

namespace Sys2Proof.Machine

/-- `jr rs` (R133): the target as it stands, misaligned or not (R132). -/
def execJr (rs : RegIdx) (s : State) : Host.Outcome State Fault Refusal := redirect (s.reg rs) s

/-- `beq rs, rt, offset` (R134). -/
def execBeq (rs rt : RegIdx) (imm : BitVec 16) (s : State) : Host.Outcome State Fault Refusal :=
  redirect (if aluEq (s.reg rs) (s.reg rt) then branchTarget s.pc imm else pcPlus4 s.pc) s

/-- `bne rs, rt, offset` (R135). -/
def execBne (rs rt : RegIdx) (imm : BitVec 16) (s : State) : Host.Outcome State Fault Refusal :=
  redirect (if aluEq (s.reg rs) (s.reg rt) then pcPlus4 s.pc else branchTarget s.pc imm) s

/-- `j target` (R136). -/
def execJ (target : BitVec 26) (s : State) : Host.Outcome State Fault Refusal :=
  redirect (jumpTarget s.pc target) s

/-- `jal target` (R137): both the link and the target use the pc of the `jal`. -/
def execJal (target : BitVec 26) (s : State) : Host.Outcome State Fault Refusal :=
  redirect (jumpTarget s.pc target) (s.setReg regRa (pcPlus4 s.pc))

end Sys2Proof.Machine
end

