-- ==== Sys2Proof/Machine/LoadStore.lean ====
section
/-! DEFINITION. The load and the store (43_loadstore.md R120 to R122). -/

namespace Sys2Proof.Machine

/-- `lw rt, imm(rs)` (R120): the alignment check and the read happen whatever `rt` is. -/
def execLw (rt rs : RegIdx) (imm : BitVec 16) (s : State) : Host.Outcome State Fault Refusal :=
  match memRead s.mem (effectiveAddress (s.reg rs) imm) with
  | .ok v => writeBack rt v s
  | .error r => .next (s.haltInstr r)

/-- `sw rt, imm(rs)` (R121). -/
def execSw (rt rs : RegIdx) (imm : BitVec 16) (s : State) : Host.Outcome State Fault Refusal :=
  match memWrite s.mem (effectiveAddress (s.reg rs) imm) (s.reg rt) with
  | .ok m => .next (s.setMem m).advance
  | .error r => .next (s.haltInstr r)

end Sys2Proof.Machine
end

