-- ==== Sys2Proof/Machine/MulDiv.lean ====
section
/-! DEFINITION. The multiply/divide unit (42_muldiv.md R110 to R113). -/

namespace Sys2Proof.Machine

/-- The exact signed 64-bit product (R110; signed by D7, log entry 15). -/
def product (a b : Word) : BitVec 64 := a.signExtend 64 * b.signExtend 64

/-- The quotient of signed integers under a rounding (R111, R113; signed by D5, log entry 13). -/
def quotient (mode : DivRounding) (n d : Int) : Int :=
  match mode with
  | .trunc => n.tdiv d
  | .floor => n.fdiv d

/-- The remainder `n - q*d` (R111). -/
def remainder (mode : DivRounding) (n d : Int) : Int := n - quotient mode n d * d

/-- `word` of a signed integer: its value modulo 2^32 (R11); so the quotient 2^31 of R111 wraps (D6, log entry 14). -/
def wordOfInt (n : Int) : Word := BitVec.ofInt 32 n

/-- `mult rs, rt` (R110). -/
def execMult (rs rt : RegIdx) (s : State) : Host.Outcome State Fault Refusal :=
  let p := product (s.reg rs) (s.reg rt)
  .next (s.setHiLo (p.extractLsb' 32 32) (p.extractLsb' 0 32)).advance

/-- `div rs, rt` (R111): a zero divisor halts before any write. -/
def execDiv (rs rt : RegIdx) (s : State) : Host.Outcome State Fault Refusal :=
  if s.reg rt = 0 then .next (s.haltInstr { cause := .divisionByZeroError, faultAddr := none })
  else
    let n := (s.reg rs).toInt
    let d := (s.reg rt).toInt
    .next (s.setHiLo (wordOfInt (remainder Config.divRounding n d))
      (wordOfInt (quotient Config.divRounding n d))).advance

/-- `mflo rd` (R112). -/
def execMflo (rd : RegIdx) (s : State) : Host.Outcome State Fault Refusal := writeBack rd s.lo s

end Sys2Proof.Machine
end

