-- ==== Sys2Proof/Machine/Step.lean ====
section
/-! DEFINITION. The one step of the machine (40_cycle.md R80, R86), and placing an instruction where it fetches. -/

namespace Sys2Proof.Machine

/-- One cycle: fetch, decode, execute (R86). A HALTED machine has no step (R80, log entry 1). Every halt is a
next state. -/
def step (s : State) : Host.Outcome State Fault Refusal :=
  match s.status with
  | .halted => .fault .halted
  | .running =>
    match s.fetch with
    | .error r => .next (s.haltWith r none)
    | .ok w =>
      match decode w with
      | .unsupported v => .next (s.haltWith { cause := .decodeError, faultAddr := none } (some v))
      | .instr i => exec i s

/-- Whether some loaded text could reach the pc: it is aligned and not below `TEXT_BASE`. -/
def State.pcPlaceable (s : State) : Bool := aligned s.pc && decide (Config.textBase ≤ s.pc.toNat)

/-- `s` with table bits `w` as the next instruction: the word at pc, a loaded text that reaches past it, a RUNNING
status with a clear record; a pc that no loaded text reaches moves to `TEXT_BASE`. It stands for the load of a
program (log entry 6). -/
def State.withFetchWord (s : State) (nbits w : Nat) : State :=
  let pc := if s.pcPlaceable then s.pc else word Config.textBase
  { s with
    pc := pc
    mem := Memory.storeWord Config.byteOrder s.mem pc (tableWord nbits w)
    textWords := max s.textWords ((pc.toNat - Config.textBase) / 4 + 1)
    status := .running
    halt := HaltRecord.clear }

end Sys2Proof.Machine
end

