-- ==== Sys2Proof/Machine/Datapath.lean ====
section
/-! DEFINITION. The spec's reference partition of one cycle: the decoder's control table (30_encoding.md R74),
the register file's ports (10_state.md R27), the memory's data port (20_memory.md R45) and the next-pc
selector (40_cycle.md R87). It has no architectural meaning of its own (D23, D24, log entry 29): `step` is
the machine, and that the two agree is a claim. -/

namespace Sys2Proof.Machine

/-- Column `dst`. -/
inductive DstSel where
  | rd | rt | ra
  deriving DecidableEq, Repr

/-- Column `alu_a`. -/
inductive ASel where
  | rs | rt
  deriving DecidableEq, Repr

/-- Column `alu_b`. -/
inductive BSel where
  | rt | simm | shamt
  deriving DecidableEq, Repr

/-- Column `alu_op`: an operation that gives a Word, or the comparison output EQ (41_alu.md R90). -/
inductive AluSel where
  | op (o : AluOp)
  | eq
  deriving DecidableEq, Repr

/-- Column `wb_sel`. -/
inductive WbSel where
  | alu | mem | lo | pc4
  deriving DecidableEq, Repr

/-- Column `branch`. -/
inductive BranchSel where
  | none | eq | ne
  deriving DecidableEq, Repr

/-- Column `jump`. -/
inductive JumpSel where
  | none | imm | reg
  deriving DecidableEq, Repr

/-- Column `hilo_op`. -/
inductive HiLoOp where
  | none | mul | div
  deriving DecidableEq, Repr

/-- One row of R74; a column that can hold `-` (don't care) is an Option. -/
structure Control where
  regWe : Bool
  dst : Option DstSel
  aluA : Option ASel
  aluB : Option BSel
  aluOp : Option AluSel
  memRe : Bool
  memWe : Bool
  wbSel : Option WbSel
  branch : BranchSel
  jump : JumpSel
  hiloOp : HiLoOp
  decErr : Bool
  deriving DecidableEq, Repr

/-- The row with every enable off and every don't care left open. -/
def Control.idle : Control where
  regWe := false
  dst := none
  aluA := none
  aluB := none
  aluOp := none
  memRe := false
  memWe := false
  wbSel := none
  branch := .none
  jump := .none
  hiloOp := .none
  decErr := false

/-- The rows `add` to `slt`. -/
def Control.aluRow (o : AluOp) : Control :=
  { Control.idle with
    regWe := true, dst := some .rd, aluA := some .rs, aluB := some .rt, aluOp := some (.op o), wbSel := some .alu }

/-- The decoder's control outputs, row by row (R74). -/
def controlOf : Decoded → Control
  | .instr (.add ..) => Control.aluRow .add
  | .instr (.sub ..) => Control.aluRow .sub
  | .instr (.and ..) => Control.aluRow .and
  | .instr (.or ..) => Control.aluRow .or
  | .instr (.xor ..) => Control.aluRow .xor
  | .instr (.nor ..) => Control.aluRow .nor
  | .instr (.slt ..) => Control.aluRow .slt
  | .instr (.sll ..) => { Control.aluRow .sll with aluA := some .rt, aluB := some .shamt }
  | .instr (.mult ..) => { Control.idle with aluA := some .rs, aluB := some .rt, hiloOp := .mul }
  | .instr (.div ..) => { Control.idle with aluA := some .rs, aluB := some .rt, hiloOp := .div }
  | .instr (.mflo ..) => { Control.idle with regWe := true, dst := some .rd, wbSel := some .lo }
  | .instr (.jr ..) => { Control.idle with aluA := some .rs, jump := .reg }
  | .instr (.addi ..) => { Control.aluRow .add with dst := some .rt, aluB := some .simm }
  | .instr (.lw ..) =>
    { Control.aluRow .add with dst := some .rt, aluB := some .simm, memRe := true, wbSel := some .mem }
  | .instr (.sw ..) =>
    { Control.idle with aluA := some .rs, aluB := some .simm, aluOp := some (.op .add), memWe := true }
  | .instr (.beq ..) =>
    { Control.idle with aluA := some .rs, aluB := some .rt, aluOp := some .eq, branch := .eq }
  | .instr (.bne ..) =>
    { Control.idle with aluA := some .rs, aluB := some .rt, aluOp := some .eq, branch := .ne }
  | .instr (.j ..) => { Control.idle with jump := .imm }
  | .instr (.jal ..) => { Control.idle with regWe := true, dst := some .ra, wbSel := some .pc4, jump := .imm }
  | .unsupported _ => { Control.idle with decErr := true }

/-- Input `a` of the ALU, from the read ports. -/
def aluInputA (c : Control) (rd1 rd2 : Word) : Word :=
  match c.aluA with
  | some .rt => rd2
  | some .rs => rd1
  | none => rd1

/-- Input `b` of the ALU, from read port B and the word's fields. -/
def aluInputB (c : Control) (w rd2 : Word) : Word :=
  match c.aluB with
  | some .simm => simm (immField w)
  | some .shamt => shamtOperand (shamtField w)
  | some .rt => rd2
  | none => rd2

/-- The ALU's Word output; a don't care is left at 0 (log entry 8). -/
def aluOutput (c : Control) (a b : Word) : Word :=
  match c.aluOp with
  | some (.op o) => alu o a b
  | some .eq => 0
  | none => 0

/-- The write port's address. -/
def writeAddress (c : Control) (w : Word) : RegIdx :=
  match c.dst with
  | some .rd => rdField w
  | some .rt => rtField w
  | some .ra => regRa
  | none => 0

/-- The write port's data, from the ALU output, the data port's output, LO or `pc + 4`. -/
def writeData (c : Control) (result drdata lo pc : Word) : Word :=
  match c.wbSel with
  | some .mem => drdata
  | some .lo => lo
  | some .pc4 => pcPlus4 pc
  | some .alu => result
  | none => result

/-- The next-pc selector (R87). -/
def nextPc (c : Control) (w pc rtarget : Word) (equal : Bool) : Word :=
  if c.jump = .reg then rtarget
  else if c.jump = .imm then jumpTarget pc (targetField w)
  else if (c.branch = .eq ∧ equal = true) ∨ (c.branch = .ne ∧ equal = false) then branchTarget pc (immField w)
  else pcPlus4 pc

/-- The HI/LO port. -/
def hiLoPort (c : Control) (a b : Word) (s : State) : State :=
  match c.hiloOp with
  | .mul => s.setHiLo ((product a b).extractLsb' 32 32) ((product a b).extractLsb' 0 32)
  | .div =>
    s.setHiLo (wordOfInt (remainder Config.divRounding a.toInt b.toInt))
      (wordOfInt (quotient Config.divRounding a.toInt b.toInt))
  | .none => s

/-- What the cycle of a fetched word does through the partition's ports: every write enable is suppressed in a
cycle that halts (R74). -/
def datapathCycle (w : Word) (s : State) : State :=
  let c := controlOf (decode w)
  let rd1 := s.reg (rsField w)
  let rd2 := s.reg (rtField w)
  let a := aluInputA c rd1 rd2
  let b := aluInputB c w rd2
  let daddr := aluOutput c a b
  if c.decErr then s.haltWith { cause := .decodeError, faultAddr := none } (some w)
  else if (c.memRe || c.memWe) && !aligned daddr then s.haltWith (raiseAlignment daddr) (some w)
  else if c.hiloOp = .div ∧ b = 0 then
    s.haltWith { cause := .divisionByZeroError, faultAddr := none } (some w)
  else
    let drdata := Memory.loadWord Config.byteOrder s.mem daddr
    let s1 := if c.regWe then s.setReg (writeAddress c w) (writeData c daddr drdata s.lo s.pc) else s
    let s2 := hiLoPort c a b s1
    let s3 := if c.memWe then s2.setMem (Memory.storeWord Config.byteOrder s.mem daddr rd2) else s2
    s3.setPc (nextPc c w s.pc rd1 (aluEq a b))

end Sys2Proof.Machine
end

