-- ==== Sys2Proof/Machine/HostOps.lean ====
section
/-! DEFINITION. What the host may do beside loading a program (70_reset_and_hazards.md R183 to R189):
run, dump the registers or memory, and read the halt record. It acts only between cycles. -/

namespace Sys2Proof.Machine

/-- What `run` leaves: the number of instructions completed and the machine state, whose status it reports. -/
structure RunResult where
  cycles : Nat
  state : State
  deriving DecidableEq, Repr

/-- `run(cycles)` (R183). A halting cycle is not counted (D20, log entry 27); a HALTED machine is left alone. -/
def run : Nat → State → RunResult
  | 0, s => { cycles := 0, state := s }
  | n + 1, s =>
    match step s with
    | .next t =>
      match t.status with
      | .halted => { cycles := 0, state := t }
      | .running => { cycles := (run n t).cycles + 1, state := (run n t).state }
    | .fault _ => { cycles := 0, state := s }
    | .refused _ => { cycles := 0, state := s }

/-- The snapshot `dump_registers()` returns (R184). -/
structure RegisterDump where
  x : Vector Word 32
  hi : Word
  lo : Word
  deriving DecidableEq, Repr

/-- `dump_registers()` (R184): `x[0]` is reported as 0. -/
def dumpRegisters (s : State) : RegisterDump := { x := Vector.ofFn s.reg, hi := s.hi, lo := s.lo }

/-- `dump_memory(address, length)`: `length` words from an aligned address, wrapping (R185; D21, log entry 9).
A misaligned address has no meaning there and is refused. -/
def dumpMemory (s : State) (address : Word) (length : Nat) : Option (List Word) :=
  if aligned address then
    some ((List.range length).map fun k => Memory.loadWord Config.byteOrder s.mem (address + word (4 * k)))
  else none

/-- The 3-bit code of a halt cause (10_state.md R31; D14, log entry 22). Codes 6 and 7 are unused. -/
def HaltCause.code : HaltCause → BitVec 3
  | .none => 0
  | .ended => 1
  | .decodeError => 2
  | .alignmentError => 3
  | .divisionByZeroError => 4
  | .outOfRangeError => 5

/-- The observation at the end of a run (R188). -/
structure Observation where
  record : HaltRecord
  registers : RegisterDump
  mem : Memory
  pc : Word
  deriving DecidableEq, Repr

/-- A run has ended when the machine is HALTED (R188); the host then reads the record and the state (R186). -/
def observe (s : State) : Option Observation :=
  match s.status with
  | .running => none
  | .halted => some { record := s.halt, registers := dumpRegisters s, mem := s.mem, pc := s.pc }

end Sys2Proof.Machine
end

