-- ==== Sys2Proof/Safety.lean ====
section
/-! DEFINITION. The terms the claims use: what a completed instruction and a halt leave of the whole state, the
invariant of the machine, and how a run ends. -/

namespace Sys2Proof

/-- The general register an instruction may write (10_state.md R24). -/
def Instr.destination : Instr → Option RegIdx
  | .sll rd _ _ => some rd
  | .jr _ => none
  | .mflo rd => some rd
  | .mult _ _ => none
  | .div _ _ => none
  | .add rd _ _ => some rd
  | .sub rd _ _ => some rd
  | .and rd _ _ => some rd
  | .or rd _ _ => some rd
  | .xor rd _ _ => some rd
  | .nor rd _ _ => some rd
  | .slt rd _ _ => some rd
  | .j _ => none
  | .jal _ => some Machine.regRa
  | .beq _ _ _ => none
  | .bne _ _ _ => none
  | .addi rt _ _ => some rt
  | .lw rt _ _ => some rt
  | .sw _ _ _ => none

/-- The instruction is one of the five that may redirect pc (44_control.md R130). -/
def Instr.redirects : Instr → Bool
  | .jr _ => true
  | .beq _ _ _ => true
  | .bne _ _ _ => true
  | .j _ => true
  | .jal _ => true
  | .sll _ _ _ => false
  | .mflo _ => false
  | .mult _ _ => false
  | .div _ _ => false
  | .add _ _ _ => false
  | .sub _ _ _ => false
  | .and _ _ _ => false
  | .or _ _ _ => false
  | .xor _ _ _ => false
  | .nor _ _ _ => false
  | .slt _ _ _ => false
  | .addi _ _ _ => false
  | .lw _ _ _ => false
  | .sw _ _ _ => false

end Sys2Proof

namespace Sys2Proof.Machine

/-- The byte at an address of a state's memory. -/
def State.byte (s : State) (a : Nat) : Byte := Memory.readByte s.mem a

/-- The word `mem[a[31:2]]` of a state. -/
def State.wordAt (s : State) (a : Word) : Word := Memory.loadWord Config.byteOrder s.mem a

/-- `t` is what a completed instruction leaves of `s`: every general register, HI, LO, pc and every byte of
memory is as given, and status, halt record and text extent are unchanged (40_cycle.md R84, R86). -/
structure Completed (s t : State) (x : RegIdx → Word) (hi lo pc : Word) (byte : Nat → Byte) : Prop where
  regs : ∀ r, t.reg r = x r
  hi : t.hi = hi
  lo : t.lo = lo
  pc : t.pc = pc
  bytes : ∀ a, t.byte a = byte a
  status : t.status = s.status
  halt : t.halt = s.halt
  textWords : t.textWords = s.textWords

/-- The registers after `x[d] <- v`: index 0 stays 0, every other register but `d` keeps its value (R21). -/
def State.regsWith (s : State) (d : RegIdx) (v : Word) (r : RegIdx) : Word :=
  if r = 0 then 0 else if r = d then v else s.reg r

/-- `t` is `s` halted for a cause, with no general register, HI, LO, byte of memory or text extent changed
(60_exceptions.md R152, but for the pc). -/
structure HaltedFor (s t : State) (cause : HaltCause) : Prop where
  status : t.status = .halted
  cause : t.halt.cause = cause
  regs : ∀ r, t.reg r = s.reg r
  hi : t.hi = s.hi
  lo : t.lo = s.lo
  bytes : ∀ a, t.byte a = s.byte a
  textWords : t.textWords = s.textWords

/-- A RUNNING machine whose next fetch answers the word `w`: pc aligned, in the loaded text, `w` at pc
(40_cycle.md R81). -/
structure State.Fetches (s : State) (w : Word) : Prop where
  status : s.status = .running
  aligned : s.pc.toNat % 4 = 0
  above : Config.textBase ≤ s.pc.toNat
  below : s.pc.toNat < Config.textBase + 4 * s.textWords
  word : s.wordAt s.pc = w

/-- A record holds exactly the fields its cause records (10_state.md R31, 60_exceptions.md R151), a recorded
address is misaligned, and the one of a fetch is the pc. -/
def HaltRecord.consistent (h : HaltRecord) : Prop :=
  match h.cause with
  | .none => h.faultWord = none ∧ h.faultAddr = none
  | .ended => h.faultWord = none ∧ h.faultAddr = none
  | .decodeError => h.faultWord.isSome ∧ h.faultAddr = none
  | .alignmentError =>
    ∃ a, h.faultAddr = some a ∧ a.toNat % 4 ≠ 0 ∧ (h.faultWord = none → a = h.faultPc)
  | .divisionByZeroError => h.faultWord.isSome ∧ h.faultAddr = none
  | .outOfRangeError => False

/-- The invariant of the machine: register 0's cell is 0 (R21), memory is in canonical form, the text fits the
address space (R32), the machine is HALTED exactly when the record has a cause (R31), the record is
consistent, and a halted machine's pc is the one recorded (R152). -/
structure State.Inv (s : State) : Prop where
  zeroCell : s.regs[0] = 0
  memory : Memory.wf s.mem = true
  text : Config.textBase + 4 * s.textWords ≤ Config.addressSpace
  cause : s.status = .halted ↔ s.halt.cause ≠ .none
  record : s.halt.consistent
  haltedPc : s.status = .halted → s.halt.faultPc = s.pc

/-- A normal end (70_reset_and_hazards.md R188). -/
def State.normalEnd (s : State) : Prop := s.status = .halted ∧ s.halt.cause = .ended

/-- An error end (R188). -/
def State.errorEnd (s : State) : Prop := s.status = .halted ∧ s.halt.cause ≠ .ended

end Sys2Proof.Machine
end

