-- ==== Sys2Proof/Certificates/Slice0/Obligations.lean ====
section
/-! DEFINITION. The statements for the provers. A statement whose docstring names a decision D<n> of
92_eei_decisions.md rests there on the spec's own choice, which the log entry named with it records. -/

open Sys2Proof Sys2Proof.Machine

/-! ### Encoding -/

/-- Decoding an encoded instruction gives it back, for all 19 instructions and every operand value.
The opcode numbers are D10's (log entry 18). -/
def Obligations.DecodeOfEncodeIsIdentity : Prop :=
  ∀ i : Instr, i.wellFormed = true → decode (encode i) = .instr i

/-- Fields an instruction does not use may hold any value and do not change the decode (D9, log entry 17). -/
def Obligations.IgnoredFieldsDoNotChangeDecode : Prop :=
  ∀ (w w' : Word) (i : Instr), decode w = .instr i → w' &&& i.usedBits = w &&& i.usedBits →
    decode w' = .instr i

/-- Encoding a decoded instruction gives back every bit of the word outside the ignored fields, and zeros there:
the decoder drops nothing else (D9, log entry 17; zeros by the convention of 30_encoding.md's syntax table). -/
def Obligations.EncodeOfDecodeKeepsUsedBits : Prop :=
  ∀ (w : Word) (i : Instr), decode w = .instr i → encode i = w &&& i.usedBits

/-- A word is unsupported exactly when its opcode is none of the 8 mapped ones, or is 0 with a function code
none of the 12 mapped ones; and the variant carries the word (numbers by D10, log entry 18; no mfhi by D8,
log entry 16). -/
def Obligations.UnmappedWordsAreUnsupported : Prop :=
  ∀ w : Word,
    (decode w = .unsupported w ↔
      opField w ∉ [0x00#6, 0x02#6, 0x03#6, 0x04#6, 0x05#6, 0x08#6, 0x23#6, 0x2B#6] ∨
        (opField w = 0x00#6 ∧ functField w ∉ [0x00#6, 0x08#6, 0x12#6, 0x18#6, 0x1A#6, 0x20#6, 0x22#6,
          0x24#6, 0x25#6, 0x26#6, 0x27#6, 0x2A#6])) ∧
    ∀ v, decode w = .unsupported v → v = w

/-- The decoder answers a mnemonic exactly for the words that the mnemonic's row of the opcode table selects; so
no word has two rows (D10, log entry 18). -/
def Obligations.DecoderFollowsOpcodeTable : Prop :=
  ∀ (w : Word) (m : Mnemonic), (opcodeRow m).selects w ↔ ∃ i, decode w = .instr i ∧ i.mnemonic = m

/-- The words of the source's worked examples, and one of each other family from the spec's examples, decode to the
instructions written beside them (D10, log entry 18, for the words that are not the source's). -/
def Obligations.WorkedExampleWordsDecode : Prop :=
  decode 0x20080005 = .instr (.addi 8 0 5) ∧
  decode 0x11000004 = .instr (.beq 8 0 4) ∧
  decode 0x01280018 = .instr (.mult 9 8) ∧
  decode 0x00004812 = .instr (.mflo 9) ∧
  decode 0x2108FFFF = .instr (.addi 8 8 0xFFFF) ∧
  decode 0x08100002 = .instr (.j 0x0100002) ∧
  decode 0x00030900 = .instr (.sll 1 3 4) ∧
  decode 0x0043082A = .instr (.slt 1 2 3) ∧
  decode 0x8FA10008 = .instr (.lw 1 29 8) ∧
  decode 0xAFA10008 = .instr (.sw 1 29 8) ∧
  decode 0x0C100004 = .instr (.jal 0x0100004) ∧
  decode 0x03E00008 = .instr (.jr 31) ∧
  decode 0xFFFFFFFF = .unsupported 0xFFFFFFFF

/-- The immediate is sign-extended and keeps its signed value; the branch offset is 4 times it and a multiple
of 4 (30_encoding.md R67's ranges). -/
def Obligations.ImmediateKeepsSignedValue : Prop :=
  ∀ imm : BitVec 16,
    (simm imm).toInt = imm.toInt ∧ -32768 ≤ (simm imm).toInt ∧ (simm imm).toInt ≤ 32767 ∧
    (branchOffset imm).toInt = 4 * (simm imm).toInt ∧ (branchOffset imm).toNat % 4 = 0 ∧
    -131072 ≤ (branchOffset imm).toInt ∧ (branchOffset imm).toInt ≤ 131068

/-! ### The step -/

/-- The fetched word goes to decode; an unsupported one halts with DECODE_ERROR, its address and the word, nothing
else changed; otherwise the step performs the instruction's execute (R83, R153). -/
def Obligations.StepRunsDecodedInstruction : Prop :=
  ∀ (s : State) (w : Word), s.Fetches w →
    (∀ i, decode w = .instr i → step s = exec i s) ∧
    (∀ v, decode w = .unsupported v → ∃ t, step s = .next t ∧ HaltedFor s t .decodeError ∧
      t.halt.faultPc = s.pc ∧ t.halt.faultWord = some w)

/-- A step exists exactly when the machine is RUNNING. It completes an instruction or halts it, with nothing in
between; a HALTED machine has no step, and a run request on it is a no-op (R80). -/
def Obligations.StepExistsExactlyWhenRunning : Prop :=
  (∀ s : State, s.status = .halted → step s = .fault .halted ∧ ∀ n, run n s = ⟨0, s⟩) ∧
  (∀ s : State, s.status = .running → ∃ t, step s = .next t ∧
    ((∃ i, decode (s.wordAt s.pc) = .instr i ∧ exec i s = .next t ∧ t.status = .running) ∨
      HaltedFor s t t.halt.cause))

/-- A misaligned pc halts with ALIGNMENT_ERROR wherever it lies, and an aligned pc outside the loaded text with
END; the records are as given and nothing else changes. These are the spec's choices D1, D2, D13, D14, D19
(log entries 10, 11, 21, 22, 26). -/
def Obligations.FetchHaltsInOrder : Prop :=
  ∀ s : State, s.status = .running →
    (s.pc.toNat % 4 ≠ 0 → ∃ t, step s = .next t ∧ HaltedFor s t .alignmentError ∧ t.pc = s.pc ∧
      t.halt = ⟨.alignmentError, s.pc, none, some s.pc⟩) ∧
    (s.pc.toNat % 4 = 0 →
      (s.pc.toNat < Config.textBase ∨ Config.textBase + 4 * s.textWords ≤ s.pc.toNat) →
      ∃ t, step s = .next t ∧ HaltedFor s t .ended ∧ t.pc = s.pc ∧ t.halt = ⟨.ended, s.pc, none, none⟩)

/-- A halt is precise: the state after it is the state before it but for the status and the record, which names
the pc of the halted cycle (pc kept by D13, log entry 21). -/
def Obligations.HaltsArePrecise : Prop :=
  ∀ s t : State, step s = .next t → t.status = .halted →
    t = { s with status := .halted, halt := t.halt } ∧ t.halt.faultPc = s.pc

/-- Every halt has one of the causes of the halt table, under its condition, with the fields that table records;
OUT_OF_RANGE_ERROR is none of them (D1, D2, D3, D14, D19; log entries 10, 11, 12, 22, 26). -/
def Obligations.EveryHaltIsInTheTable : Prop :=
  ∀ s t : State, step s = .next t → t.status = .halted →
    (s.pc.toNat % 4 ≠ 0 ∧ t.halt = ⟨.alignmentError, s.pc, none, some s.pc⟩) ∨
    (s.pc.toNat % 4 = 0 ∧
      ¬(Config.textBase ≤ s.pc.toNat ∧ s.pc.toNat < Config.textBase + 4 * s.textWords) ∧
      t.halt = ⟨.ended, s.pc, none, none⟩) ∨
    (∃ w, s.Fetches w ∧
      ((decode w = .unsupported w ∧ t.halt = ⟨.decodeError, s.pc, some w, none⟩) ∨
       (∃ rt rs imm ea, (decode w = .instr (.lw rt rs imm) ∨ decode w = .instr (.sw rt rs imm)) ∧
         ea = word ((s.reg rs).toNat + (imm.signExtend 32).toNat) ∧ ea.toNat % 4 ≠ 0 ∧
         t.halt = ⟨.alignmentError, s.pc, some w, some ea⟩) ∨
       (∃ rs rt, decode w = .instr (.div rs rt) ∧ s.reg rt = 0 ∧
         t.halt = ⟨.divisionByZeroError, s.pc, some w, none⟩)))

/-! ### Registers -/

/-- Register 0 is forced to zero: it always reads 0, a write to it changes no state, and a write to another
register replaces that register alone (R21). -/
def Obligations.RegisterZeroIsForced : Prop :=
  (∀ s : State, s.reg 0 = 0) ∧
  (∀ (s : State) (v : Word), s.setReg 0 v = s) ∧
  (∀ (s : State) (d r : RegIdx) (v : Word), d ≠ 0 →
    (s.setReg d v).reg r = if r = d then v else s.reg r)

/-- An instruction changes no general register but its destination; only `jal` writes through no field, to
register 31. -/
def Obligations.OnlyDestinationChanges : Prop :=
  ∀ (i : Instr) (s t : State) (r : RegIdx), exec i s = .next t → t.reg r ≠ s.reg r →
    i.destination = some r

/-! ### ALU instructions -/

/-- `add` and `sub` complete in every state: the destination gets the sum or difference modulo 2^32 (discarded at
register 0), pc moves on by 4, nothing else changes. -/
def Obligations.AddSubResults : Prop :=
  ∀ (rd rs rt : RegIdx) (s : State),
    (∃ t, exec (.add rd rs rt) s = .next t ∧
      Completed s t (s.regsWith rd (word ((s.reg rs).toNat + (s.reg rt).toNat))) s.hi s.lo (s.pc + 4) s.byte) ∧
    (∃ t, exec (.sub rd rs rt) s = .next t ∧
      Completed s t (s.regsWith rd (BitVec.ofInt 32 ((s.reg rs).toNat - (s.reg rt).toNat)))
        s.hi s.lo (s.pc + 4) s.byte)

/-- `and`, `or`, `xor`, `nor` complete in every state with the bitwise result (its meaning by log entry 28), and
change nothing else but pc. -/
def Obligations.LogicalResults : Prop :=
  ∀ (rd rs rt : RegIdx) (s : State),
    (∃ t, exec (.and rd rs rt) s = .next t ∧
      Completed s t (s.regsWith rd (s.reg rs &&& s.reg rt)) s.hi s.lo (s.pc + 4) s.byte) ∧
    (∃ t, exec (.or rd rs rt) s = .next t ∧
      Completed s t (s.regsWith rd (s.reg rs ||| s.reg rt)) s.hi s.lo (s.pc + 4) s.byte) ∧
    (∃ t, exec (.xor rd rs rt) s = .next t ∧
      Completed s t (s.regsWith rd (s.reg rs ^^^ s.reg rt)) s.hi s.lo (s.pc + 4) s.byte) ∧
    (∃ t, exec (.nor rd rs rt) s = .next t ∧
      Completed s t (s.regsWith rd (~~~(s.reg rs ||| s.reg rt))) s.hi s.lo (s.pc + 4) s.byte)

/-- `slt` completes in every state: 1 exactly when the first source is less as a signed integer, else 0. -/
def Obligations.SltComparesSigned : Prop :=
  ∀ (rd rs rt : RegIdx) (s : State),
    ∃ t, exec (.slt rd rs rt) s = .next t ∧
      Completed s t (s.regsWith rd (if (s.reg rs).toInt < (s.reg rt).toInt then 0x00000001 else 0x00000000))
        s.hi s.lo (s.pc + 4) s.byte

/-- `sll` completes in every state: the source times 2^shamt, modulo 2^32. -/
def Obligations.SllMultipliesByPowerOfTwo : Prop :=
  ∀ (rd rt : RegIdx) (shamt : BitVec 5) (s : State),
    ∃ t, exec (.sll rd rt shamt) s = .next t ∧
      Completed s t (s.regsWith rd (word ((s.reg rt).toNat * 2 ^ shamt.toNat))) s.hi s.lo (s.pc + 4) s.byte

/-- `addi`, whole (R99): its words, and its completion in every state with the wrapped sum of the source and the
sign-extended immediate. -/
def Obligations.AddiInstruction : Prop :=
  (∀ w : Word, opField w = 0x08 → decode w = .instr (.addi (rtField w) (rsField w) (immField w))) ∧
  (∀ (rt rs : RegIdx) (imm : BitVec 16) (s : State),
    ∃ t, exec (.addi rt rs imm) s = .next t ∧
      Completed s t (s.regsWith rt (word ((s.reg rs).toNat + (imm.signExtend 32).toNat)))
        s.hi s.lo (s.pc + 4) s.byte)

/-! ### Multiply and divide -/

/-- `mult` completes in every state: HI:LO read as one signed 64-bit number is the exact product of the signed
sources, and nothing else but pc changes (signed by D7, log entry 15). -/
def Obligations.MultGivesExactProduct : Prop :=
  ∀ (rs rt : RegIdx) (s : State),
    ∃ t, exec (.mult rs rt) s = .next t ∧ (t.hi ++ t.lo).toInt = (s.reg rs).toInt * (s.reg rt).toInt ∧
      Completed s t s.reg t.hi t.lo (s.pc + 4) s.byte

/-- `div` by a nonzero divisor completes: LO is the quotient rounded toward zero and HI the remainder, smaller than
the divisor and with the dividend's sign; INT_MIN by -1 wraps to INT_MIN with remainder 0. Signed and truncating
by D5, the wrap by D6 (log entries 13, 14). -/
def Obligations.DivTruncatesTowardZero : Prop :=
  ∀ (rs rt : RegIdx) (s : State) (n d q r : Int),
    s.reg rt ≠ 0 → n = (s.reg rs).toInt → d = (s.reg rt).toInt →
    q = (n * d).sign * ((n.natAbs / d.natAbs : Nat) : Int) → r = n - q * d →
    (∃ t, exec (.div rs rt) s = .next t ∧
      Completed s t s.reg (BitVec.ofInt 32 r) (BitVec.ofInt 32 q) (s.pc + 4) s.byte ∧
      t.hi.toInt = r ∧ (n = -2147483648 ∧ d = -1 ∨ t.lo.toInt = q) ∧
      (n = -2147483648 → d = -1 → t.lo = 0x80000000)) ∧
    r.natAbs < d.natAbs ∧ (r = 0 ∨ r.sign = n.sign)

/-- The alternative rounding a model may take as an argument: the quotient rounds down, the remainder is 0 or has
the divisor's sign, and the two roundings agree where the signs do (D5, log entry 13). -/
def Obligations.FloorRoundingLaw : Prop :=
  ∀ n d : Int, d ≠ 0 →
    n = quotient .floor n d * d + remainder .floor n d ∧
    (0 < d → 0 ≤ remainder .floor n d ∧ remainder .floor n d < d) ∧
    (d < 0 → d < remainder .floor n d ∧ remainder .floor n d ≤ 0) ∧
    (0 ≤ n * d → quotient .floor n d = quotient .trunc n d)

/-- `div` with divisor 0 halts with DIVISION_BY_ZERO_ERROR whatever the dividend, HI and LO kept (R155). -/
def Obligations.DivByZeroHalts : Prop :=
  ∀ (rs rt : RegIdx) (s : State), s.reg rt = 0 →
    ∃ t, exec (.div rs rt) s = .next t ∧ HaltedFor s t .divisionByZeroError

/-- `mflo`: its words, whatever the ignored fields hold (D9, log entry 17), LO 0 after reset, and its completion
in every state with LO in the destination. -/
def Obligations.MfloInstruction : Prop :=
  (∀ w : Word, opField w = 0x00 → functField w = 0x12 → decode w = .instr (.mflo (rdField w))) ∧
  State.reset.lo = 0 ∧
  (∀ (rd : RegIdx) (s : State),
    ∃ t, exec (.mflo rd) s = .next t ∧ Completed s t (s.regsWith rd s.lo) s.hi s.lo (s.pc + 4) s.byte)

/-- No instruction but `mult` and `div` changes HI or LO. -/
def Obligations.OnlyMultDivWriteHiLo : Prop :=
  ∀ (i : Instr) (s t : State), exec i s = .next t → (t.hi ≠ s.hi ∨ t.lo ≠ s.lo) →
    ∃ rs rt, i = .mult rs rt ∨ i = .div rs rt

/-! ### Memory, loads and stores -/

/-- The two memory primitives (R42, R43): a misaligned address raises ALIGNMENT_ERROR with that address and reads
or writes nothing; an aligned one reads `mem[a[31:2]]`, or replaces that whole word and no other. -/
def Obligations.MemoryPrimitives : Prop :=
  (∀ (m : Memory) (a v : Word), a.toNat % 4 ≠ 0 →
    memRead m a = .error ⟨.alignmentError, some a⟩ ∧ memWrite m a v = .error ⟨.alignmentError, some a⟩) ∧
  (∀ (m : Memory) (a b : Word), a.toNat % 4 = 0 → a.toNat / 4 = b.toNat / 4 →
    memRead m a = .ok (Memory.loadWord Config.byteOrder m b)) ∧
  (∀ (m : Memory) (a v : Word), a.toNat % 4 = 0 →
    ∃ m', memWrite m a v = .ok m' ∧ memRead m' a = .ok v ∧
      ∀ b : Word, b.toNat / 4 ≠ a.toNat / 4 →
        Memory.loadWord Config.byteOrder m' b = Memory.loadWord Config.byteOrder m b)

/-- `lw` completes at an aligned effective address: the destination gets the word there and nothing else but pc
changes; at a misaligned one it halts with the address and its own word recorded (address wrap D12, pc kept D13,
record D14; log entries 20, 21, 22). -/
def Obligations.LwLoadsAlignedWord : Prop :=
  ∀ (rt rs : RegIdx) (imm : BitVec 16) (s : State) (ea : Word),
    ea = word ((s.reg rs).toNat + (imm.signExtend 32).toNat) →
    (ea.toNat % 4 = 0 → ∃ t, exec (.lw rt rs imm) s = .next t ∧
      Completed s t (s.regsWith rt (s.wordAt ea)) s.hi s.lo (s.pc + 4) s.byte) ∧
    (ea.toNat % 4 ≠ 0 → ∃ t, exec (.lw rt rs imm) s = .next t ∧ HaltedFor s t .alignmentError ∧
      t.pc = s.pc ∧ t.halt = ⟨.alignmentError, s.pc, some (s.wordAt s.pc), some ea⟩)

/-- `sw` completes at an aligned effective address: the word there becomes the source register, every byte outside
the four stored ones and everything else but pc is unchanged; at a misaligned one it halts as `lw` does (D12,
D13, D14; log entries 20, 21, 22). -/
def Obligations.SwStoresAlignedWord : Prop :=
  ∀ (rt rs : RegIdx) (imm : BitVec 16) (s : State) (ea : Word),
    ea = word ((s.reg rs).toNat + (imm.signExtend 32).toNat) →
    (ea.toNat % 4 = 0 → ∃ t, exec (.sw rt rs imm) s = .next t ∧
      Completed s t s.reg s.hi s.lo (s.pc + 4) t.byte ∧ t.wordAt ea = s.reg rt ∧
      ∀ a : Nat, ¬(ea.toNat ≤ a ∧ a < ea.toNat + 4) → t.byte a = s.byte a) ∧
    (ea.toNat % 4 ≠ 0 → ∃ t, exec (.sw rt rs imm) s = .next t ∧ HaltedFor s t .alignmentError ∧
      t.pc = s.pc ∧ t.halt = ⟨.alignmentError, s.pc, some (s.wordAt s.pc), some ea⟩)

/-- A stored word is loaded back from the same address, in any later state whose four bytes there are still the
stored ones, through any base and offset that reach it. -/
def Obligations.StoreThenLoadReturnsValue : Prop :=
  ∀ (rt rs rd rb : RegIdx) (imm imm' : BitVec 16) (s t u : State),
    (effectiveAddress (s.reg rs) imm).toNat % 4 = 0 → exec (.sw rt rs imm) s = .next t →
    effectiveAddress (u.reg rb) imm' = effectiveAddress (s.reg rs) imm →
    (∀ k : Nat, k < 4 → u.byte ((effectiveAddress (s.reg rs) imm).toNat + k) =
      t.byte ((effectiveAddress (s.reg rs) imm).toNat + k)) →
    ∃ v, exec (.lw rd rb imm') u = .next v ∧ Completed u v (u.regsWith rd (s.reg rt)) u.hi u.lo (u.pc + 4) u.byte

/-- Byte order is not observable: two memories with the same words, held in any two byte orders, have the same
words after the same store (D4, log entry 2). -/
def Obligations.ByteOrderIsUnobservable : Prop :=
  ∀ (o o' : ByteOrder) (m m' : Memory), (∀ b, Memory.loadWord o m b = Memory.loadWord o' m' b) →
    ∀ a v b : Word,
      Memory.loadWord o (Memory.storeWord o m a v) b = Memory.loadWord o' (Memory.storeWord o' m' a v) b

/-- Memories in canonical form with the same words are the same data: a word never written and a word written
with 0 are one state (canonical form is the model's own, log entry 2). -/
def Obligations.CanonicalMemoryIsItsWords : Prop :=
  ∀ m m' : Memory, Memory.wf m = true → Memory.wf m' = true →
    (∀ a : Word, Memory.loadWord Config.byteOrder m a = Memory.loadWord Config.byteOrder m' a) → m = m'

/-- No instruction but `sw` changes a byte of memory. -/
def Obligations.OnlySwChangesMemory : Prop :=
  ∀ (i : Instr) (s t : State) (a : Nat), exec i s = .next t → t.byte a ≠ s.byte a →
    ∃ rt rs imm, i = .sw rt rs imm ∧ (effectiveAddress (s.reg rs) imm).toNat ≤ a ∧
      a < (effectiveAddress (s.reg rs) imm).toNat + 4

/-- A store into the loaded text is what the next fetch from that address answers, and a store past its end is never
fetched (D1, D17; log entries 10, 25). -/
def Obligations.StoreIsSeenByFetch : Prop :=
  ∀ (rt rs : RegIdx) (imm : BitVec 16) (s t : State) (ea : Word),
    ea = effectiveAddress (s.reg rs) imm → ea.toNat % 4 = 0 → exec (.sw rt rs imm) s = .next t →
    ((Config.textBase ≤ ea.toNat ∧ ea.toNat < Config.textBase + 4 * s.textWords) →
      (t.setPc ea).fetch = .ok (s.reg rt)) ∧
    (Config.textBase + 4 * s.textWords ≤ ea.toNat → (t.setPc ea).fetch = .error ⟨.ended, none⟩)

/-! ### Control transfer -/

/-- `jr` completes in every state: pc becomes the register as it stands, misaligned or not, and nothing else
changes. -/
def Obligations.JrTakesRegister : Prop :=
  ∀ (rs : RegIdx) (s : State),
    ∃ t, exec (.jr rs) s = .next t ∧ Completed s t s.reg s.hi s.lo (s.reg rs) s.byte

/-- `beq`: its words, and its completion in every state: pc becomes the branch's address plus 4 plus 4 times the
signed immediate where all 32 bits agree, and the address plus 4 where not (target wrap D12, log entry 20). -/
def Obligations.BeqInstruction : Prop :=
  (∀ w : Word, opField w = 0x04 → decode w = .instr (.beq (rsField w) (rtField w) (immField w))) ∧
  (∀ (rs rt : RegIdx) (imm : BitVec 16) (s : State),
    ∃ t, exec (.beq rs rt imm) s = .next t ∧
      Completed s t s.reg s.hi s.lo
        (if s.reg rs = s.reg rt then BitVec.ofInt 32 (s.pc.toNat + 4 + 4 * imm.toInt) else s.pc + 4) s.byte)

/-- `bne` completes in every state: the branch target where the registers differ, the next word where not
(target wrap D12, log entry 20). -/
def Obligations.BneBranchesOnDifference : Prop :=
  ∀ (rs rt : RegIdx) (imm : BitVec 16) (s : State),
    ∃ t, exec (.bne rs rt imm) s = .next t ∧
      Completed s t s.reg s.hi s.lo
        (if s.reg rs ≠ s.reg rt then BitVec.ofInt 32 (s.pc.toNat + 4 + 4 * imm.toInt) else s.pc + 4) s.byte

/-- `j` and `jal` complete in every state: pc becomes 4 times the target field in the 256 MiB region of the jump
itself; `jal` also puts the address after it in register 31; nothing else changes (region D11, link wrap D12;
log entries 19, 20). -/
def Obligations.JumpsStayInRegion : Prop :=
  ∀ (target : BitVec 26) (s : State),
    (∃ t, exec (.j target) s = .next t ∧
      t.pc.toNat = s.pc.toNat / 2 ^ 28 * 2 ^ 28 + 4 * target.toNat ∧
      Completed s t s.reg s.hi s.lo t.pc s.byte) ∧
    (∃ t, exec (.jal target) s = .next t ∧
      t.pc.toNat = s.pc.toNat / 2 ^ 28 * 2 ^ 28 + 4 * target.toNat ∧
      Completed s t (s.regsWith 31 (s.pc + 4)) s.hi s.lo t.pc s.byte)

/-- Only `jr` takes an aligned pc to a misaligned one. -/
def Obligations.OnlyJrMisalignsPc : Prop :=
  ∀ s t : State, step s = .next t → s.pc.toNat % 4 = 0 → t.pc.toNat % 4 ≠ 0 →
    ∃ rs, decode (s.wordAt s.pc) = .instr (.jr rs) ∧ t.pc = s.reg rs

/-- Every instruction but the five control transfers goes on to the next word, or halts where it stands (pc kept
by D13, log entry 21). -/
def Obligations.OnlyControlTransfersRedirect : Prop :=
  ∀ (i : Instr) (s t : State), i.redirects = false → exec i s = .next t →
    (t.pc = s.pc + 4 ∧ t.status = s.status) ∨ (t.pc = s.pc ∧ t.status = .halted)

/-! ### The whole machine -/

/-- The invariant holds after reset. -/
def Obligations.ResetSatisfiesInvariant : Prop := State.reset.Inv

/-- Every step keeps the invariant: register 0's cell is 0, memory is canonical, the text fits, and status and halt
record agree, with exactly the fields the cause records (the canonical form and the cell are the model's own, the
record D14; log entries 2, 7, 22). -/
def Obligations.StepKeepsInvariant : Prop :=
  ∀ s t : State, s.Inv → step s = .next t → t.Inv

/-- No step changes the extent of the loaded text (D1, log entry 10). -/
def Obligations.StepKeepsTextExtent : Prop :=
  ∀ s t : State, step s = .next t → t.textWords = s.textWords

/-- No instruction reads HI, the halt record or the text extent: what it does to every register but HI, to LO, pc,
memory and status is the same whatever they hold. -/
def Obligations.HiddenStateDoesNotLeak : Prop :=
  ∀ (i : Instr) (s : State) (h : Word) (record : HaltRecord) (n : Nat),
    ∃ t t', exec i s = .next t ∧ exec i { s with hi := h, halt := record, textWords := n } = .next t' ∧
      t'.regs = t.regs ∧ t'.lo = t.lo ∧ t'.pc = t.pc ∧ t'.mem = t.mem ∧ t'.status = t.status

/-- One cycle of the reference partition (control table, register ports, ALU, data port, next-pc selector) is
the step, for every word fetched and every state (D23, D24, log entry 29; don't cares by log entry 8). -/
def Obligations.DatapathCycleIsStep : Prop :=
  ∀ (s : State) (w : Word), s.Fetches w → step s = .next (datapathCycle w s)

/-! ### Reset and the host -/

/-- `load_program` of words that fit gives a machine with every register 0, the words in the text, every other byte
0, pc at the text base, RUNNING with a clear record, satisfying the invariant; words that do not fit are
refused (D1, D14, D16, D22; log entries 4, 9, 10, 22, 24). -/
def Obligations.LoadProgramReplacesState : Prop :=
  ∀ words : List Word,
    (Config.textBase + 4 * words.length ≤ 2 ^ 32 → ∃ t, loadProgram words = some t ∧
      (∀ r, t.reg r = 0) ∧ t.hi = 0 ∧ t.lo = 0 ∧ t.pc = word Config.textBase ∧ t.status = .running ∧
      t.halt = ⟨.none, 0, none, none⟩ ∧ t.textWords = words.length ∧
      (∀ (k : Nat) (hk : k < words.length), t.wordAt (word (Config.textBase + 4 * k)) = words[k]) ∧
      (∀ a : Nat, a < Config.textBase ∨ Config.textBase + 4 * words.length ≤ a → t.byte a = 0) ∧
      t.Inv) ∧
    (2 ^ 32 < Config.textBase + 4 * words.length → loadProgram words = none)

/-- Power-on is the load of the empty program: its first cycle halts with END at the text base, and a run before any
load completes nothing (D15, log entry 23). -/
def Obligations.PowerOnIsEmptyLoad : Prop :=
  loadProgram [] = some State.reset ∧
  ∀ n : Nat, (run (n + 1) State.reset).cycles = 0 ∧ (run (n + 1) State.reset).state.normalEnd ∧
    (run (n + 1) State.reset).state.halt.faultPc = 0x00400000

/-- A run that its budget cuts short is resumable: running `m` and then `n` cycles is running `m + n`, in count and
state (D20, log entry 27). -/
def Obligations.RunIsResumable : Prop :=
  ∀ (m n : Nat) (s : State),
    run (m + n) s =
      ⟨(run m s).cycles + (run n (run m s).state).cycles, (run n (run m s).state).state⟩

/-- A run completes at most its budget, and fewer only when it ends HALTED (D20, log entry 27). -/
def Obligations.RunStopsAtBudgetOrHalt : Prop :=
  ∀ (n : Nat) (s : State), (run n s).cycles ≤ n ∧
    ((run n s).cycles < n → (run n s).state.status = .halted)

/-- `dump_registers` maps every index, HI and LO to their Words, index 0 to 0 (R184). -/
def Obligations.DumpRegistersReportsAll : Prop :=
  ∀ s : State, (∀ r : RegIdx, (dumpRegisters s).x[r.val] = s.reg r) ∧ (dumpRegisters s).x[0] = 0 ∧
    (dumpRegisters s).hi = s.hi ∧ (dumpRegisters s).lo = s.lo

/-- `dump_memory` from an aligned address answers that many words in order, wrapping; from a misaligned one it is
refused (D21, log entry 9). -/
def Obligations.DumpMemoryReportsWords : Prop :=
  ∀ (s : State) (address : Word) (n : Nat),
    (address.toNat % 4 = 0 → ∃ ws, dumpMemory s address n = some ws ∧ ws.length = n ∧
      ∀ (k : Nat) (hk : k < ws.length), ws[k] = s.wordAt (word (address.toNat + 4 * k))) ∧
    (address.toNat % 4 ≠ 0 → dumpMemory s address n = none)

/-- A HALTED machine, and no other, shows its observation: record, registers, HI, LO, memory, pc; the causes have
the codes 0 to 5 (D14, log entry 22). -/
def Obligations.ObservationAtHalt : Prop :=
  (∀ s : State, (observe s).isSome = true ↔ s.status = .halted) ∧
  (∀ (s : State) (o : Observation), observe s = some o →
    o.record = s.halt ∧ (∀ r : RegIdx, o.registers.x[r.val] = s.reg r) ∧ o.registers.hi = s.hi ∧
    o.registers.lo = s.lo ∧ o.mem = s.mem ∧ o.pc = s.pc) ∧
  ([HaltCause.none, .ended, .decodeError, .alignmentError, .divisionByZeroError, .outOfRangeError].map
    HaltCause.code = [0, 1, 2, 3, 4, 5])
end

