-- ==== Sys2Proof/Laws/Encoding.lean ====
section
/-! SUPPORT. The fields of a word built by each format: what the encoder puts in, the decoder's extractors read. -/

namespace Sys2Proof

@[simp] theorem regOfField_fieldOfReg (r : RegIdx) : regOfField (fieldOfReg r) = r := rfl

@[simp] theorem fieldOfReg_regOfField (f : BitVec 5) : fieldOfReg (regOfField f) = f := rfl

/-- A field of an append that lies wholly in the low part. -/
theorem extract_low {m n : Nat} (a : BitVec m) (b : BitVec n) (start len : Nat) (h : start + len ≤ n) :
    (a ++ b).extractLsb' start len = b.extractLsb' start len := by
  apply BitVec.eq_of_getLsbD_eq
  intro i hi
  simp only [BitVec.getLsbD_extractLsb', BitVec.getLsbD_append]
  rw [if_pos (by omega)]

/-- A field of an append that lies wholly in the high part. -/
theorem extract_high {m n : Nat} (a : BitVec m) (b : BitVec n) (start len : Nat) (h : n ≤ start) :
    (a ++ b).extractLsb' start len = a.extractLsb' (start - n) len := by
  apply BitVec.eq_of_getLsbD_eq
  intro i hi
  simp only [BitVec.getLsbD_extractLsb', BitVec.getLsbD_append]
  rw [if_neg (by omega), show start + i - n = start - n + i by omega]

section RType
variable (rs rt rd : RegIdx) (shamt : BitVec 5) (funct : BitVec 6)

theorem opField_rType : opField (rType rs rt rd shamt funct) = 0 := by
  unfold opField rType
  simp (disch := decide) only [extract_high]
  simp
theorem functField_rType : functField (rType rs rt rd shamt funct) = funct := by
  unfold functField rType
  simp (disch := decide) only [extract_low]
  simp
theorem shamtField_rType : shamtField (rType rs rt rd shamt funct) = shamt := by
  unfold shamtField rType
  simp (disch := decide) only [extract_low, extract_high]
  simp
theorem rsField_rType : rsField (rType rs rt rd shamt funct) = rs := by
  unfold rsField rType
  simp (disch := decide) only [extract_low, extract_high]
  simp
theorem rtField_rType : rtField (rType rs rt rd shamt funct) = rt := by
  unfold rtField rType
  simp (disch := decide) only [extract_low, extract_high]
  simp
theorem rdField_rType : rdField (rType rs rt rd shamt funct) = rd := by
  unfold rdField rType
  simp (disch := decide) only [extract_low, extract_high]
  simp

end RType

section IType
variable (op : BitVec 6) (rs rt : RegIdx) (imm : BitVec 16)

theorem opField_iType : opField (iType op rs rt imm) = op := by
  unfold opField iType
  simp (disch := decide) only [extract_high]
  simp
theorem rsField_iType : rsField (iType op rs rt imm) = rs := by
  unfold rsField iType
  simp (disch := decide) only [extract_low, extract_high]
  simp
theorem rtField_iType : rtField (iType op rs rt imm) = rt := by
  unfold rtField iType
  simp (disch := decide) only [extract_low, extract_high]
  simp
theorem immField_iType : immField (iType op rs rt imm) = imm := by
  unfold immField iType
  simp (disch := decide) only [extract_low]
  simp

end IType

section JType
variable (op : BitVec 6) (target : BitVec 26)

theorem opField_jType : opField (jType op target) = op := by
  unfold opField jType
  simp (disch := decide) only [extract_high]
  simp
theorem targetField_jType : targetField (jType op target) = target := by
  unfold targetField jType
  simp (disch := decide) only [extract_low]
  simp

end JType

end Sys2Proof
end

