-- ==== Sys2Proof/Laws/Memory.lean ====
section
/-! SUPPORT. The laws of memory: read after write by byte and by word, and that every operation keeps the
canonical form. -/

namespace Sys2Proof.Machine

@[simp] theorem readByte_nil (a : Nat) : Memory.readByte [] a = 0 := rfl

theorem readByte_cons (b : Nat) (v : Byte) (m : Memory) (a : Nat) :
    Memory.readByte ((b, v) :: m) a = if a = b then v else Memory.readByte m a := rfl

/-- Erasing an address makes it read as unlisted and leaves every other address alone. -/
theorem readByte_erase (m : Memory) (a b : Nat) :
    Memory.readByte (m.filter (fun c => c.1 != a)) b = if b = a then 0 else Memory.readByte m b := by
  induction m with
  | nil => simp
  | cons c m ih =>
    obtain ⟨k, v⟩ := c
    by_cases hk : k = a
    · subst hk; by_cases hb : b = k <;> simp [hb] at ih <;> simp [ih, readByte_cons, hb]
    · by_cases hb : b = k
      · subst hb; simp [readByte_cons, hk]
      · simp [readByte_cons, hk, hb, ih]

/-- Inserting at an address that no entry has. -/
theorem readByte_insertByte (m : Memory) (a : Nat) (v : Byte) (b : Nat) (h : ∀ c ∈ m, c.1 ≠ a) :
    Memory.readByte (Memory.insertByte m a v) b = if b = a then v else Memory.readByte m b := by
  induction m with
  | nil => simp [Memory.insertByte, readByte_cons]
  | cons c m ih =>
    obtain ⟨k, u⟩ := c
    have hk : k ≠ a := h (k, u) (by simp)
    have hm := ih fun c hc => h c (by simp [hc])
    unfold Memory.insertByte
    split
    · simp [readByte_cons]
    · by_cases hb : b = k
      · subst hb; simp [readByte_cons, hk]
      · simp [readByte_cons, hb, hm]

/-- Read after write, for every memory, canonical or not. -/
theorem readByte_writeByte (m : Memory) (a : Nat) (v : Byte) (b : Nat) :
    Memory.readByte (Memory.writeByte m a v) b = if b = a then v else Memory.readByte m b := by
  unfold Memory.writeByte
  split
  · next h => subst h; exact readByte_erase m a b
  · rw [readByte_insertByte _ _ _ _ (by simp), readByte_erase]
    split <;> rfl

/-! ### The canonical form -/

theorem wfFrom_cons (low a : Nat) (v : Byte) (m : Memory) :
    Memory.wfFrom low ((a, v) :: m) = true ↔
      low ≤ a ∧ a < Config.addressSpace ∧ v ≠ Config.unlistedByte ∧ Memory.wfFrom (a + 1) m = true := by
  simp [Memory.wfFrom, and_assoc]

theorem wfFrom_mono {low low' : Nat} (m : Memory) (hle : low' ≤ low) (h : Memory.wfFrom low m = true) :
    Memory.wfFrom low' m = true := by
  cases m with
  | nil => rfl
  | cons c m =>
    obtain ⟨a, v⟩ := c
    rw [wfFrom_cons] at h ⊢
    exact ⟨by omega, h.2⟩

theorem wfFrom_filter (p : Host.Cell → Bool) (m : Memory) (low : Nat) (h : Memory.wfFrom low m = true) :
    Memory.wfFrom low (m.filter p) = true := by
  induction m generalizing low with
  | nil => exact h
  | cons c m ih =>
    obtain ⟨a, v⟩ := c
    rw [wfFrom_cons] at h
    have hm := ih (a + 1) h.2.2.2
    by_cases hp : p (a, v)
    · rw [List.filter_cons_of_pos hp, wfFrom_cons]
      exact ⟨h.1, h.2.1, h.2.2.1, hm⟩
    · rw [List.filter_cons_of_neg hp]
      exact wfFrom_mono _ (by omega) hm

theorem wfFrom_insertByte (m : Memory) (low a : Nat) (v : Byte) (h : Memory.wfFrom low m = true)
    (hlow : low ≤ a) (ha : a < Config.addressSpace) (hv : v ≠ Config.unlistedByte)
    (hm : ∀ c ∈ m, c.1 ≠ a) : Memory.wfFrom low (Memory.insertByte m a v) = true := by
  induction m generalizing low with
  | nil => simp [Memory.insertByte, hlow, ha, hv, Memory.wfFrom]
  | cons c m ih =>
    obtain ⟨k, u⟩ := c
    have hk : k ≠ a := hm (k, u) (by simp)
    rw [wfFrom_cons] at h
    unfold Memory.insertByte
    split
    · exact (wfFrom_cons ..).2 ⟨hlow, ha, hv, (wfFrom_cons ..).2 ⟨by omega, h.2⟩⟩
    · exact (wfFrom_cons ..).2 ⟨h.1, h.2.1, h.2.2.1,
        ih (k + 1) h.2.2.2 (by omega) fun c hc => hm c (by simp [hc])⟩

theorem writeByte_wf (m : Memory) (a : Nat) (v : Byte) (h : Memory.wf m = true)
    (ha : a < Config.addressSpace) : Memory.wf (Memory.writeByte m a v) = true := by
  have hf : Memory.wfFrom 0 (m.filter (fun c => c.1 != a)) = true := wfFrom_filter _ m 0 h
  unfold Memory.writeByte Memory.wf
  split
  · exact hf
  · next hv => exact wfFrom_insertByte _ 0 a v hf (Nat.zero_le _) ha hv (by simp)

theorem wordBase_lt (a : Word) : wordBase a + 3 < Config.addressSpace := by
  have := (a.extractLsb' 2 30).isLt
  unfold wordBase Config.addressSpace
  omega

theorem storeWord_wf (o : ByteOrder) (m : Memory) (a v : Word) (h : Memory.wf m = true) :
    Memory.wf (Memory.storeWord o m a v) = true := by
  have hb := wordBase_lt a
  exact writeByte_wf _ _ _ (writeByte_wf _ _ _ (writeByte_wf _ _ _ (writeByte_wf _ _ _ h
    (by omega)) (by omega)) (by omega)) (by omega)

theorem storeWords_wf (m : Memory) (a : Nat) (ws : List Word) (h : Memory.wf m = true) :
    Memory.wf (storeWords m a ws) = true := by
  induction ws generalizing m a with
  | nil => exact h
  | cons w ws ih => exact ih _ _ (storeWord_wf _ _ _ _ h)

theorem reset_mem_wf : Memory.wf State.reset.mem = true := rfl

/-! ### Words -/

theorem wordOfBytes_byteOfWord (o : ByteOrder) (v : Word) :
    wordOfBytes o (byteOfWord o v 0) (byteOfWord o v 1) (byteOfWord o v 2) (byteOfWord o v 3) = v := by
  cases o <;> simp only [wordOfBytes, byteOfWord] <;>
  · apply BitVec.eq_of_getLsbD_eq
    intro i hi
    simp only [BitVec.getLsbD_append, BitVec.getLsbD_extractLsb']
    rcases (by omega : i < 8 ∨ (8 ≤ i ∧ i < 16) ∨ (16 ≤ i ∧ i < 24) ∨ (24 ≤ i ∧ i < 32)) with h | h | h | h
    all_goals
      simp (disch := omega) only [if_pos, if_neg, decide_eq_true, Bool.true_and]
      congr 1
      omega

/-- `a[31:2]` names the word that starts at `wordBase`. -/
theorem wordBase_eq (a : Word) : wordBase a = 4 * (a.toNat / 4) := by
  have h : (a.extractLsb' 2 30).toNat = a.toNat / 4 := by
    rw [BitVec.extractLsb'_toNat, Nat.shiftRight_eq_div_pow]
    have := a.isLt
    omega
  unfold wordBase
  rw [h]

theorem aligned_iff (a : Word) : aligned a = true ↔ a.toNat % 4 = 0 := by
  unfold aligned
  rw [beq_iff_eq, ← BitVec.toNat_inj, BitVec.extractLsb'_toNat]
  simp

theorem wordBase_of_aligned (a : Word) (h : aligned a = true) : wordBase a = a.toNat := by
  rw [aligned_iff] at h
  rw [wordBase_eq]
  omega

/-- What a stored word does to every byte. -/
theorem readByte_storeWord (o : ByteOrder) (m : Memory) (a v : Word) (b : Nat) :
    Memory.readByte (Memory.storeWord o m a v) b =
      if wordBase a ≤ b ∧ b < wordBase a + 4 then byteOfWord o v (b - wordBase a) else Memory.readByte m b := by
  simp only [Memory.storeWord, readByte_writeByte]
  by_cases h : wordBase a ≤ b ∧ b < wordBase a + 4
  · rcases (by omega : b = wordBase a ∨ b = wordBase a + 1 ∨ b = wordBase a + 2 ∨ b = wordBase a + 3) with
      h' | h' | h' | h' <;> simp [h']
  · rw [if_neg h]
    repeat rw [if_neg (by omega)]

/-- Load after store, by words, whatever the byte order. -/
theorem loadWord_storeWord (o : ByteOrder) (m : Memory) (a v b : Word) :
    Memory.loadWord o (Memory.storeWord o m a v) b =
      if wordBase b = wordBase a then v else Memory.loadWord o m b := by
  by_cases h : wordBase b = wordBase a
  · rw [if_pos h]
    unfold Memory.loadWord
    simp only [readByte_storeWord, h]
    simpa using wordOfBytes_byteOfWord o v
  · rw [if_neg h]
    unfold Memory.loadWord
    have ha := wordBase_eq a
    have hb := wordBase_eq b
    simp only [readByte_storeWord]
    repeat rw [if_neg (by omega)]

end Sys2Proof.Machine
end

