-- ==== Sys2Proof/Laws/State.lean ====
section
/-! SUPPORT. One lemma per field per update of the state, and the register file's read after write. -/

namespace Sys2Proof.Machine

/-! ### setPc and advance -/

@[simp] theorem setPc_regs (s : State) (p : Word) : (s.setPc p).regs = s.regs := rfl
@[simp] theorem setPc_hi (s : State) (p : Word) : (s.setPc p).hi = s.hi := rfl
@[simp] theorem setPc_lo (s : State) (p : Word) : (s.setPc p).lo = s.lo := rfl
@[simp] theorem setPc_pc (s : State) (p : Word) : (s.setPc p).pc = p := rfl
@[simp] theorem setPc_mem (s : State) (p : Word) : (s.setPc p).mem = s.mem := rfl
@[simp] theorem setPc_status (s : State) (p : Word) : (s.setPc p).status = s.status := rfl
@[simp] theorem setPc_halt (s : State) (p : Word) : (s.setPc p).halt = s.halt := rfl
@[simp] theorem setPc_textWords (s : State) (p : Word) : (s.setPc p).textWords = s.textWords := rfl
@[simp] theorem setPc_reg (s : State) (p : Word) (r : RegIdx) : (s.setPc p).reg r = s.reg r := rfl

@[simp] theorem advance_regs (s : State) : s.advance.regs = s.regs := rfl
@[simp] theorem advance_hi (s : State) : s.advance.hi = s.hi := rfl
@[simp] theorem advance_lo (s : State) : s.advance.lo = s.lo := rfl
@[simp] theorem advance_pc (s : State) : s.advance.pc = pcPlus4 s.pc := rfl
@[simp] theorem advance_mem (s : State) : s.advance.mem = s.mem := rfl
@[simp] theorem advance_status (s : State) : s.advance.status = s.status := rfl
@[simp] theorem advance_halt (s : State) : s.advance.halt = s.halt := rfl
@[simp] theorem advance_textWords (s : State) : s.advance.textWords = s.textWords := rfl
@[simp] theorem advance_reg (s : State) (r : RegIdx) : s.advance.reg r = s.reg r := rfl

/-! ### setHiLo -/

@[simp] theorem setHiLo_regs (s : State) (h l : Word) : (s.setHiLo h l).regs = s.regs := rfl
@[simp] theorem setHiLo_hi (s : State) (h l : Word) : (s.setHiLo h l).hi = h := rfl
@[simp] theorem setHiLo_lo (s : State) (h l : Word) : (s.setHiLo h l).lo = l := rfl
@[simp] theorem setHiLo_pc (s : State) (h l : Word) : (s.setHiLo h l).pc = s.pc := rfl
@[simp] theorem setHiLo_mem (s : State) (h l : Word) : (s.setHiLo h l).mem = s.mem := rfl
@[simp] theorem setHiLo_status (s : State) (h l : Word) : (s.setHiLo h l).status = s.status := rfl
@[simp] theorem setHiLo_halt (s : State) (h l : Word) : (s.setHiLo h l).halt = s.halt := rfl
@[simp] theorem setHiLo_textWords (s : State) (h l : Word) : (s.setHiLo h l).textWords = s.textWords := rfl
@[simp] theorem setHiLo_reg (s : State) (h l : Word) (r : RegIdx) : (s.setHiLo h l).reg r = s.reg r := rfl

/-! ### setMem -/

@[simp] theorem setMem_regs (s : State) (m : Memory) : (s.setMem m).regs = s.regs := rfl
@[simp] theorem setMem_hi (s : State) (m : Memory) : (s.setMem m).hi = s.hi := rfl
@[simp] theorem setMem_lo (s : State) (m : Memory) : (s.setMem m).lo = s.lo := rfl
@[simp] theorem setMem_pc (s : State) (m : Memory) : (s.setMem m).pc = s.pc := rfl
@[simp] theorem setMem_mem (s : State) (m : Memory) : (s.setMem m).mem = m := rfl
@[simp] theorem setMem_status (s : State) (m : Memory) : (s.setMem m).status = s.status := rfl
@[simp] theorem setMem_halt (s : State) (m : Memory) : (s.setMem m).halt = s.halt := rfl
@[simp] theorem setMem_textWords (s : State) (m : Memory) : (s.setMem m).textWords = s.textWords := rfl
@[simp] theorem setMem_reg (s : State) (m : Memory) (r : RegIdx) : (s.setMem m).reg r = s.reg r := rfl

/-! ### haltWith -/

@[simp] theorem haltWith_regs (s : State) (r : Raise) (w : Option Word) : (s.haltWith r w).regs = s.regs := rfl
@[simp] theorem haltWith_hi (s : State) (r : Raise) (w : Option Word) : (s.haltWith r w).hi = s.hi := rfl
@[simp] theorem haltWith_lo (s : State) (r : Raise) (w : Option Word) : (s.haltWith r w).lo = s.lo := rfl
@[simp] theorem haltWith_pc (s : State) (r : Raise) (w : Option Word) : (s.haltWith r w).pc = s.pc := rfl
@[simp] theorem haltWith_mem (s : State) (r : Raise) (w : Option Word) : (s.haltWith r w).mem = s.mem := rfl
@[simp] theorem haltWith_status (s : State) (r : Raise) (w : Option Word) : (s.haltWith r w).status = .halted := rfl
@[simp] theorem haltWith_halt (s : State) (r : Raise) (w : Option Word) :
    (s.haltWith r w).halt = { cause := r.cause, faultPc := s.pc, faultWord := w, faultAddr := r.faultAddr } := rfl
@[simp] theorem haltWith_textWords (s : State) (r : Raise) (w : Option Word) :
    (s.haltWith r w).textWords = s.textWords := rfl
@[simp] theorem haltWith_reg (s : State) (r : Raise) (w : Option Word) (x : RegIdx) :
    (s.haltWith r w).reg x = s.reg x := rfl

/-! ### setReg -/

theorem setReg_zero (s : State) (v : Word) : s.setReg 0 v = s := rfl

theorem setReg_of_ne (s : State) (d : RegIdx) (v : Word) (hd : d ≠ 0) :
    s.setReg d v = { s with regs := s.regs.set d.val v d.isLt } := if_neg hd

@[simp] theorem setReg_hi (s : State) (d : RegIdx) (v : Word) : (s.setReg d v).hi = s.hi := by
  unfold State.setReg; split <;> rfl
@[simp] theorem setReg_lo (s : State) (d : RegIdx) (v : Word) : (s.setReg d v).lo = s.lo := by
  unfold State.setReg; split <;> rfl
@[simp] theorem setReg_pc (s : State) (d : RegIdx) (v : Word) : (s.setReg d v).pc = s.pc := by
  unfold State.setReg; split <;> rfl
@[simp] theorem setReg_mem (s : State) (d : RegIdx) (v : Word) : (s.setReg d v).mem = s.mem := by
  unfold State.setReg; split <;> rfl
@[simp] theorem setReg_status (s : State) (d : RegIdx) (v : Word) : (s.setReg d v).status = s.status := by
  unfold State.setReg; split <;> rfl
@[simp] theorem setReg_halt (s : State) (d : RegIdx) (v : Word) : (s.setReg d v).halt = s.halt := by
  unfold State.setReg; split <;> rfl
@[simp] theorem setReg_textWords (s : State) (d : RegIdx) (v : Word) :
    (s.setReg d v).textWords = s.textWords := by
  unfold State.setReg; split <;> rfl

@[simp] theorem reg_zero (s : State) : s.reg 0 = 0 := rfl

/-- The register file in one line (10_state.md R21). -/
theorem reg_setReg (s : State) (d r : RegIdx) (v : Word) :
    (s.setReg d v).reg r = if r = 0 then 0 else if r = d then v else s.reg r := by
  by_cases hr : r = 0
  · simp [hr]
  by_cases hd : d = 0
  · subst hd; simp [setReg_zero, hr]
  by_cases h : r = d
  · subst h; simp [setReg_of_ne, State.reg, hr]
  · have : d.val ≠ r.val := fun e => h (Fin.ext e.symm)
    simp [setReg_of_ne, State.reg, hr, hd, h, this]

/-- A write to a register leaves the cell of register 0 alone. -/
@[simp] theorem setReg_zeroCell (s : State) (d : RegIdx) (v : Word) : (s.setReg d v).regs[0] = s.regs[0] := by
  by_cases hd : d = 0
  · subst hd; rfl
  · have : d.val ≠ 0 := fun e => hd (Fin.ext e)
    simp [setReg_of_ne, hd, this]

end Sys2Proof.Machine
end

