-- ==== Sys2Proof/Laws/Ops.lean ====
section
/-! SUPPORT. Each shared operation's one lemma: everything it can answer. -/

namespace Sys2Proof.Machine

theorem memRead_eq (m : Memory) (a : Word) :
    (a.toNat % 4 = 0 ∧ memRead m a = .ok (Memory.loadWord Config.byteOrder m a)) ∨
      (a.toNat % 4 ≠ 0 ∧ memRead m a = .error (raiseAlignment a)) := by
  unfold memRead
  by_cases h : aligned a = true
  · exact .inl ⟨(aligned_iff a).1 h, if_pos h⟩
  · exact .inr ⟨fun e => h ((aligned_iff a).2 e), if_neg h⟩

theorem memWrite_eq (m : Memory) (a v : Word) :
    (a.toNat % 4 = 0 ∧ memWrite m a v = .ok (Memory.storeWord Config.byteOrder m a v)) ∨
      (a.toNat % 4 ≠ 0 ∧ memWrite m a v = .error (raiseAlignment a)) := by
  unfold memWrite
  by_cases h : aligned a = true
  · exact .inl ⟨(aligned_iff a).1 h, if_pos h⟩
  · exact .inr ⟨fun e => h ((aligned_iff a).2 e), if_neg h⟩

theorem inText_iff (s : State) :
    s.inText = true ↔
      Config.textBase ≤ s.pc.toNat ∧ s.pc.toNat < Config.textBase + 4 * s.textWords := by
  simp [State.inText]

/-- Fetch answers in one of three ways (40_cycle.md R81). -/
theorem fetch_eq (s : State) :
    (s.pc.toNat % 4 ≠ 0 ∧ s.fetch = .error (raiseAlignment s.pc)) ∨
      (s.pc.toNat % 4 = 0 ∧ s.inText = false ∧ s.fetch = .error { cause := .ended, faultAddr := none }) ∨
      (s.pc.toNat % 4 = 0 ∧ s.inText = true ∧ s.fetch = .ok s.instrWord) := by
  unfold State.fetch
  by_cases h : aligned s.pc = true
  · rw [if_pos h]
    have h4 := (aligned_iff s.pc).1 h
    by_cases ht : s.inText = true
    · exact .inr (.inr ⟨h4, ht, if_pos ht⟩)
    · exact .inr (.inl ⟨h4, by simpa using ht, if_neg ht⟩)
  · exact .inl ⟨fun e => h ((aligned_iff s.pc).2 e), if_neg h⟩

theorem writeBack_eq (d : RegIdx) (v : Word) (s : State) :
    writeBack d v s = .next ((s.setReg d v).setPc (pcPlus4 s.pc)) := by
  simp [writeBack, State.advance]

theorem redirect_eq (target : Word) (s : State) : redirect target s = .next (s.setPc target) := rfl

end Sys2Proof.Machine
end

