-- ==== Sys2Proof/Laws/Exec.lean ====
section
/-! SUPPORT. What an instruction can do, said once: `exec` always answers a next state, of one of five shapes
(40_cycle.md R86: at most one register write, or HI/LO, or one memory word, and a pc; or a halt). -/

namespace Sys2Proof.Machine

/-- The shapes of an executed instruction. -/
inductive ExecShape (i : Instr) (s : State) : State → Prop where
  /-- a register write (to index 0 where nothing is written) and the next pc in sequence -/
  | register (d : RegIdx) (v : Word) : ExecShape i s ((s.setReg d v).setPc (pcPlus4 s.pc))
  /-- one of the five control transfers; only `jal` writes a register -/
  | transfer (d : RegIdx) (v target : Word)
      (h : (∃ rs, i = .jr rs ∧ target = s.reg rs) ∨
        (∃ rs rt imm, (i = .beq rs rt imm ∨ i = .bne rs rt imm) ∧
          (target = branchTarget s.pc imm ∨ target = pcPlus4 s.pc)) ∨
        (∃ t, (i = .j t ∨ i = .jal t) ∧ target = jumpTarget s.pc t)) :
      ExecShape i s ((s.setReg d v).setPc target)
  /-- HI and LO together -/
  | hiLo (vh vl : Word) (h : ∃ rs rt, i = .mult rs rt ∨ i = .div rs rt) :
      ExecShape i s ((s.setHiLo vh vl).setPc (pcPlus4 s.pc))
  /-- one memory word -/
  | store (rt rs : RegIdx) (imm : BitVec 16) (hi : i = .sw rt rs imm)
      (ha : (effectiveAddress (s.reg rs) imm).toNat % 4 = 0) :
      ExecShape i s ((s.setMem (Memory.storeWord Config.byteOrder s.mem
        (effectiveAddress (s.reg rs) imm) (s.reg rt))).setPc (pcPlus4 s.pc))
  /-- the halt of a misaligned access -/
  | misaligned (rt rs : RegIdx) (imm : BitVec 16) (hi : i = .lw rt rs imm ∨ i = .sw rt rs imm)
      (ha : (effectiveAddress (s.reg rs) imm).toNat % 4 ≠ 0) :
      ExecShape i s (s.haltInstr (raiseAlignment (effectiveAddress (s.reg rs) imm)))
  /-- the halt of a zero divisor -/
  | divisionByZero (rs rt : RegIdx) (hi : i = .div rs rt) (hz : s.reg rt = 0) :
      ExecShape i s (s.haltInstr { cause := .divisionByZeroError, faultAddr := none })

theorem writeBack_shape (i : Instr) (d : RegIdx) (v : Word) (s : State) :
    ∃ t, writeBack d v s = .next t ∧ ExecShape i s t :=
  ⟨_, writeBack_eq d v s, .register d v⟩

/-- A redirect without a link is a transfer whose register write is discarded. -/
theorem setPc_shape {i : Instr} {s : State} {target : Word}
    (h : (∃ rs, i = .jr rs ∧ target = s.reg rs) ∨
      (∃ rs rt imm, (i = .beq rs rt imm ∨ i = .bne rs rt imm) ∧
        (target = branchTarget s.pc imm ∨ target = pcPlus4 s.pc)) ∨
      (∃ t, (i = .j t ∨ i = .jal t) ∧ target = jumpTarget s.pc t)) :
    ExecShape i s (s.setPc target) :=
  .transfer 0 0 target h

theorem exec_shape (i : Instr) (s : State) : ∃ t, exec i s = .next t ∧ ExecShape i s t := by
  cases i with
  | sll rd rt shamt => exact writeBack_shape ..
  | mflo rd => exact writeBack_shape ..
  | add rd rs rt => exact writeBack_shape ..
  | sub rd rs rt => exact writeBack_shape ..
  | and rd rs rt => exact writeBack_shape ..
  | or rd rs rt => exact writeBack_shape ..
  | xor rd rs rt => exact writeBack_shape ..
  | nor rd rs rt => exact writeBack_shape ..
  | slt rd rs rt => exact writeBack_shape ..
  | addi rt rs imm => exact writeBack_shape ..
  | jr rs => exact ⟨_, rfl, setPc_shape (.inl ⟨rs, rfl, rfl⟩)⟩
  | j t => exact ⟨_, rfl, setPc_shape (.inr (.inr ⟨t, .inl rfl, rfl⟩))⟩
  | jal t => exact ⟨_, rfl, .transfer regRa _ _ (.inr (.inr ⟨t, .inr rfl, rfl⟩))⟩
  | beq rs rt imm =>
    refine ⟨_, rfl, setPc_shape (.inr (.inl ⟨rs, rt, imm, .inl rfl, ?_⟩))⟩
    split
    · exact .inl rfl
    · exact .inr rfl
  | bne rs rt imm =>
    refine ⟨_, rfl, setPc_shape (.inr (.inl ⟨rs, rt, imm, .inr rfl, ?_⟩))⟩
    split
    · exact .inr rfl
    · exact .inl rfl
  | mult rs rt => exact ⟨_, rfl, .hiLo _ _ ⟨rs, rt, .inl rfl⟩⟩
  | div rs rt =>
    simp only [exec, execDiv]
    split
    · next h => exact ⟨_, rfl, .divisionByZero rs rt rfl h⟩
    · exact ⟨_, rfl, .hiLo _ _ ⟨rs, rt, .inr rfl⟩⟩
  | lw rt rs imm =>
    simp only [exec, execLw]
    rcases memRead_eq s.mem (effectiveAddress (s.reg rs) imm) with ⟨_, h⟩ | ⟨ha, h⟩ <;> rw [h]
    · exact writeBack_shape ..
    · exact ⟨_, rfl, .misaligned rt rs imm (.inl rfl) ha⟩
  | sw rt rs imm =>
    simp only [exec, execSw]
    rcases memWrite_eq s.mem (effectiveAddress (s.reg rs) imm) (s.reg rt) with ⟨ha, h⟩ | ⟨ha, h⟩ <;> rw [h]
    · exact ⟨_, rfl, .store rt rs imm rfl ha⟩
    · exact ⟨_, rfl, .misaligned rt rs imm (.inr rfl) ha⟩

/-- What a step can do (40_cycle.md R86). -/
theorem step_cases {s : State} {o : Host.Outcome State Fault Refusal} (h : step s = o) :
    (s.status = .halted ∧ o = .fault .halted) ∨
    (s.status = .running ∧
      ((∃ r, s.fetch = .error r ∧ o = .next (s.haltWith r none)) ∨
       (∃ w, s.fetch = .ok s.instrWord ∧ decode s.instrWord = .unsupported w ∧
          o = .next (s.haltWith { cause := .decodeError, faultAddr := none } (some w))) ∨
       (∃ i, s.fetch = .ok s.instrWord ∧ decode s.instrWord = .instr i ∧ o = exec i s))) := by
  subst h
  unfold step
  cases hs : s.status with
  | halted => exact .inl ⟨rfl, rfl⟩
  | running =>
    refine .inr ⟨rfl, ?_⟩
    cases hf : s.fetch with
    | error r => exact .inl ⟨r, rfl, rfl⟩
    | ok w =>
      have hw : w = s.instrWord := by
        rcases fetch_eq s with ⟨_, h⟩ | ⟨_, _, h⟩ | ⟨_, _, h⟩ <;> rw [h] at hf <;> cases hf
        rfl
      subst hw
      cases hd : decode s.instrWord with
      | unsupported v => exact .inr (.inl ⟨v, rfl, rfl, by simp only [hd]⟩)
      | instr i => exact .inr (.inr ⟨i, rfl, rfl, by simp only [hd]⟩)

end Sys2Proof.Machine
end

