-- ==== Sys2Proof/Laws/PerInstr.lean ====
section
/-! SUPPORT. The family EncodingRow: an instruction's word has the fixed bits of its row of
spec/opcode_table.json, one lemma per constructor. -/

/-- The word of `i` is selected by the row of `i`'s mnemonic. -/
def Sys2Proof.Laws.EncodingRow.Statement (i : Sys2Proof.Instr) : Prop :=
  (Sys2Proof.opcodeRow i.mnemonic).selects (Sys2Proof.encode i)

namespace Sys2Proof.Laws

/-- The op and funct bits of a word, as the R-type rows' mask picks them. -/
theorem special_mask (w : Word) (f : BitVec 6) (h0 : opField w = 0) (hf : functField w = f) :
    w &&& 0xFC00003F = 0#26 ++ f := by
  subst hf
  apply BitVec.eq_of_getLsbD_eq
  intro i hi
  have hop : ∀ k, k < 6 → w.getLsbD (26 + k) = false := fun k hk => by
    have := congrArg (fun v => v.getLsbD k) h0
    simpa [opField, BitVec.getLsbD_extractLsb', hk] using this
  simp only [BitVec.getLsbD_and, BitVec.getLsbD_append, functField, BitVec.getLsbD_extractLsb']
  interval_cases i <;> simp
  all_goals first
    | exact hop 0 (by decide)
    | exact hop 1 (by decide)
    | exact hop 2 (by decide)
    | exact hop 3 (by decide)
    | exact hop 4 (by decide)
    | exact hop 5 (by decide)

/-- The op bits of a word, as the I-type and J-type rows' mask picks them. -/
theorem primary_mask (w : Word) (op : BitVec 6) (h : opField w = op) : w &&& 0xFC000000 = op ++ 0#26 := by
  subst h
  apply BitVec.eq_of_getLsbD_eq
  intro i hi
  simp only [BitVec.getLsbD_and, BitVec.getLsbD_append, opField, BitVec.getLsbD_extractLsb']
  interval_cases i <;> simp

end Sys2Proof.Laws

open Sys2Proof Sys2Proof.Laws

theorem Sys2Proof.Laws.EncodingRow.sll (rd rt : RegIdx) (shamt : BitVec 5) :
    EncodingRow.Statement (.sll rd rt shamt) := special_mask _ 0x00 (opField_rType ..) (functField_rType ..)
theorem Sys2Proof.Laws.EncodingRow.jr (rs : RegIdx) :
    EncodingRow.Statement (.jr rs) := special_mask _ 0x08 (opField_rType ..) (functField_rType ..)
theorem Sys2Proof.Laws.EncodingRow.mflo (rd : RegIdx) :
    EncodingRow.Statement (.mflo rd) := special_mask _ 0x12 (opField_rType ..) (functField_rType ..)
theorem Sys2Proof.Laws.EncodingRow.mult (rs rt : RegIdx) :
    EncodingRow.Statement (.mult rs rt) := special_mask _ 0x18 (opField_rType ..) (functField_rType ..)
theorem Sys2Proof.Laws.EncodingRow.div (rs rt : RegIdx) :
    EncodingRow.Statement (.div rs rt) := special_mask _ 0x1A (opField_rType ..) (functField_rType ..)
theorem Sys2Proof.Laws.EncodingRow.add (rd rs rt : RegIdx) :
    EncodingRow.Statement (.add rd rs rt) := special_mask _ 0x20 (opField_rType ..) (functField_rType ..)
theorem Sys2Proof.Laws.EncodingRow.sub (rd rs rt : RegIdx) :
    EncodingRow.Statement (.sub rd rs rt) := special_mask _ 0x22 (opField_rType ..) (functField_rType ..)
theorem Sys2Proof.Laws.EncodingRow.and (rd rs rt : RegIdx) :
    EncodingRow.Statement (.and rd rs rt) := special_mask _ 0x24 (opField_rType ..) (functField_rType ..)
theorem Sys2Proof.Laws.EncodingRow.or (rd rs rt : RegIdx) :
    EncodingRow.Statement (.or rd rs rt) := special_mask _ 0x25 (opField_rType ..) (functField_rType ..)
theorem Sys2Proof.Laws.EncodingRow.xor (rd rs rt : RegIdx) :
    EncodingRow.Statement (.xor rd rs rt) := special_mask _ 0x26 (opField_rType ..) (functField_rType ..)
theorem Sys2Proof.Laws.EncodingRow.nor (rd rs rt : RegIdx) :
    EncodingRow.Statement (.nor rd rs rt) := special_mask _ 0x27 (opField_rType ..) (functField_rType ..)
theorem Sys2Proof.Laws.EncodingRow.slt (rd rs rt : RegIdx) :
    EncodingRow.Statement (.slt rd rs rt) := special_mask _ 0x2A (opField_rType ..) (functField_rType ..)
theorem Sys2Proof.Laws.EncodingRow.j (target : BitVec 26) :
    EncodingRow.Statement (.j target) := primary_mask _ 0x02 (opField_jType ..)
theorem Sys2Proof.Laws.EncodingRow.jal (target : BitVec 26) :
    EncodingRow.Statement (.jal target) := primary_mask _ 0x03 (opField_jType ..)
theorem Sys2Proof.Laws.EncodingRow.beq (rs rt : RegIdx) (imm : BitVec 16) :
    EncodingRow.Statement (.beq rs rt imm) := primary_mask _ 0x04 (opField_iType ..)
theorem Sys2Proof.Laws.EncodingRow.bne (rs rt : RegIdx) (imm : BitVec 16) :
    EncodingRow.Statement (.bne rs rt imm) := primary_mask _ 0x05 (opField_iType ..)
theorem Sys2Proof.Laws.EncodingRow.addi (rt rs : RegIdx) (imm : BitVec 16) :
    EncodingRow.Statement (.addi rt rs imm) := primary_mask _ 0x08 (opField_iType ..)
theorem Sys2Proof.Laws.EncodingRow.lw (rt rs : RegIdx) (imm : BitVec 16) :
    EncodingRow.Statement (.lw rt rs imm) := primary_mask _ 0x23 (opField_iType ..)
theorem Sys2Proof.Laws.EncodingRow.sw (rt rs : RegIdx) (imm : BitVec 16) :
    EncodingRow.Statement (.sw rt rs imm) := primary_mask _ 0x2B (opField_iType ..)
end

