-- ==== Sys2Proof/Tests/Slice0.lean ====
section
/-! SUPPORT. Tests by hand calculation from the spec (the vectors are 95_test_vectors.md's), and a witness for
the hypotheses of every statement. -/

open Sys2Proof Sys2Proof.Machine

namespace Sys2Proof.Tests

/-! ### Helpers -/

/-- The reset state with some registers written. -/
def withRegs (xs : List (RegIdx × Word)) : State := xs.foldl (fun s p => s.setReg p.1 p.2) State.reset

/-- That state with a word next to run. -/
def ready (w : Nat) (xs : List (RegIdx × Word)) : State := (withRegs xs).withFetchWord 32 w

/-- The same at another pc. -/
def readyAt (pc : Word) (w : Nat) (xs : List (RegIdx × Word)) : State := ((withRegs xs).setPc pc).withFetchWord 32 w

/-- A word put in memory. -/
def poke (a v : Word) (s : State) : State := s.setMem (Memory.storeWord Config.byteOrder s.mem a v)

/-- The state after one step that has a next state. -/
def after (s : State) : State :=
  match step s with
  | .next t => t
  | .fault _ => s
  | .refused _ => s

/-! ### Well-formedness (R66, R180): the smoke tests -/

theorem test_wellFormed_instruction : (Instr.sll 31 31 0x1F).wellFormed = true := by decide
theorem test_program_fits : programFits [0x20080005, 0x01000008] = true := by decide
/-- The ill-formed program: one word more than there is room for (R180: TEXT_BASE + 4*n <= 2^32). -/
theorem test_program_too_large : programFits (List.replicate 1072693249 0) = false := by
  rw [programFits, List.length_replicate]; decide
theorem test_largest_program_fits : programFits (List.replicate 1072693248 0) = true := by
  rw [programFits, List.length_replicate]; decide

/-! ### Decoding: one word of each constructor, from 41_alu.md to 44_control.md and 95_test_vectors.md -/

theorem test_decode_sll : decode 0b000000_00000_00011_00001_00100_000000 = .instr (.sll 1 3 4) := by decide
theorem test_decode_jr : decode 0b000000_11111_00000_00000_00000_001000 = .instr (.jr 31) := by decide
theorem test_decode_mflo : decode 0b000000_00000_00000_01001_00000_010010 = .instr (.mflo 9) := by decide
theorem test_decode_mult : decode 0b000000_01001_01000_00000_00000_011000 = .instr (.mult 9 8) := by decide
theorem test_decode_div : decode 0b000000_00010_00011_00000_00000_011010 = .instr (.div 2 3) := by decide
theorem test_decode_add : decode 0b000000_00010_00011_00001_00000_100000 = .instr (.add 1 2 3) := by decide
theorem test_decode_sub : decode 0b000000_00010_00011_00001_00000_100010 = .instr (.sub 1 2 3) := by decide
theorem test_decode_and : decode 0b000000_00010_00011_00001_00000_100100 = .instr (.and 1 2 3) := by decide
theorem test_decode_or : decode 0b000000_00010_00011_00001_00000_100101 = .instr (.or 1 2 3) := by decide
theorem test_decode_xor : decode 0b000000_00010_00011_00001_00000_100110 = .instr (.xor 1 2 3) := by decide
theorem test_decode_nor : decode 0b000000_00010_00011_00001_00000_100111 = .instr (.nor 1 2 3) := by decide
theorem test_decode_slt : decode 0b000000_00010_00011_00001_00000_101010 = .instr (.slt 1 2 3) := by decide
theorem test_decode_j : decode 0b000010_00000100000000000000000010 = .instr (.j 0x0100002) := by decide
theorem test_decode_jal : decode 0b000011_00000100000000000000000100 = .instr (.jal 0x0100004) := by decide
theorem test_decode_beq : decode 0b000100_01000_00000_0000000000000100 = .instr (.beq 8 0 4) := by decide
theorem test_decode_bne : decode 0b000101_00010_00011_1111111111111110 = .instr (.bne 2 3 0xFFFE) := by decide
theorem test_decode_addi : decode 0b001000_00000_01000_0000000000000101 = .instr (.addi 8 0 5) := by decide
theorem test_decode_lw : decode 0b100011_11101_00001_0000000000001000 = .instr (.lw 1 29 8) := by decide
theorem test_decode_sw : decode 0b101011_11101_00001_0000000000001000 = .instr (.sw 1 29 8) := by decide

/-- Illegal words of section 2.5: op 0x3F, and what are mfhi, syscall, addu, lui and eret elsewhere. -/
theorem test_decode_illegal :
    [0xFFFFFFFF, 0x00000010, 0x0000000C, 0x00000021, 0x3C010001, 0x42000018].map decode =
      [.unsupported 0xFFFFFFFF, .unsupported 0x00000010, .unsupported 0x0000000C, .unsupported 0x00000021,
        .unsupported 0x3C010001, .unsupported 0x42000018] := by decide
/-- Ignored fields (section 2.1): `add` with shamt 31, `sll` with rs 7. -/
theorem test_decode_ignored_fields :
    decode 0x03E007E0 = .instr (.add 0 31 0) ∧ decode 0x00E30900 = .instr (.sll 1 3 4) := by decide
theorem test_encode_examples :
    encode (.addi 8 0 5) = 0x20080005 ∧ encode (.beq 8 0 4) = 0x11000004 ∧ encode (.mult 9 8) = 0x01280018 ∧
      encode (.mflo 9) = 0x00004812 ∧ encode (.j 0x0100002) = 0x08100002 := by decide
theorem test_decodeTableWord :
    decodeTableWord 32 0x00430820 = some (.add 1 2 3) ∧ decodeTableWord 32 0xFFFFFFFF = none := by decide
theorem test_decodeBytes_rest :
    decodeBytes [0x20, 0x08, 0x00, 0x05, 0xAA] = .instr (.addi 8 0 5) [0xAA] ∧
      decodeBytes [0x20, 0x08, 0x00] = .tooShort := by decide
/-- Each row's fixed bits decode to the row's mnemonic. -/
theorem test_rows_decode :
    [0x00000000, 0x00000008, 0x00000012, 0x00000018, 0x0000001A, 0x00000020, 0x00000022, 0x00000024, 0x00000025,
      0x00000026, 0x00000027, 0x0000002A, 0x08000000, 0x0C000000, 0x10000000, 0x14000000, 0x20000000, 0x8C000000,
      0xAC000000].map (fun w => (decodeTableWord 32 w).map Instr.mnemonic) =
    [some .sll, some .jr, some .mflo, some .mult, some .div, some .add, some .sub, some .and, some .or, some .xor,
      some .nor, some .slt, some .j, some .jal, some .beq, some .bne, some .addi, some .lw, some .sw] := by decide

/-! ### One step of each instruction (95_test_vectors.md section 2) -/

theorem test_add_wraps : (after (ready 0x00430820 [(2, 0x7FFFFFFF), (3, 1)])).reg 1 = 0x80000000 := by decide
theorem test_add_to_zero : (after (ready 0x00430020 [(2, 5), (3, 6)])).reg 0 = 0 := by decide
theorem test_sub_wraps : (after (ready 0x00430822 [(2, 5), (3, 7)])).reg 1 = 0xFFFFFFFE := by decide
theorem test_sub_source_is_destination : (after (ready 0x00421022 [(2, 0x1234)])).reg 2 = 0 := by decide
theorem test_xor : (after (ready 0x00430826 [(2, 0xFF00FF00), (3, 0x0FF00FF0)])).reg 1 = 0xF0F0F0F0 := by decide
theorem test_or : (after (ready 0x00430825 [(2, 0xFF00FF00), (3, 0x0FF00FF0)])).reg 1 = 0xFFF0FFF0 := by decide
theorem test_nor : (after (ready 0x00430827 [(2, 0xFF00FF00), (3, 0x0FF00FF0)])).reg 1 = 0x000F000F := by decide
theorem test_and : (after (ready 0x00430824 [(2, 0xFF00FF00), (3, 0x0FF00FF0)])).reg 1 = 0x0F000F00 := by decide
theorem test_slt_negative : (after (ready 0x0043082A [(2, 0x80000000), (3, 0x7FFFFFFF)])).reg 1 = 1 := by decide
theorem test_slt_positive : (after (ready 0x0043082A [(2, 0), (3, 0xFFFFFFFF)])).reg 1 = 0 := by decide
theorem test_sll_four : (after (ready 0x00030900 [(3, 0x89ABCDEF)])).reg 1 = 0x9ABCDEF0 := by decide
theorem test_sll_most : (after (ready 0x00030FC0 [(3, 3)])).reg 1 = 0x80000000 := by decide
theorem test_addi_negative : (after (ready 0x2041FFFF [])).reg 1 = 0xFFFFFFFF := by decide
theorem test_addi_example :
    (after (ready 0x20080005 [])).reg 8 = 5 ∧ (after (ready 0x20080005 [])).pc = 0x00400004 := by decide
theorem test_mult_negative :
    (after (ready 0x00430018 [(2, 0xFFFFFFFF), (3, 2)])).hi = 0xFFFFFFFF ∧
      (after (ready 0x00430018 [(2, 0xFFFFFFFF), (3, 2)])).lo = 0xFFFFFFFE := by decide
theorem test_mult_largest :
    (after (ready 0x00430018 [(2, 0x80000000), (3, 0x80000000)])).hi = 0x40000000 ∧
      (after (ready 0x00430018 [(2, 0x80000000), (3, 0x80000000)])).lo = 0 := by decide
theorem test_div_negative :
    (after (ready 0x0043001A [(2, 0xFFFFFFF9), (3, 2)])).lo = 0xFFFFFFFD ∧
      (after (ready 0x0043001A [(2, 0xFFFFFFF9), (3, 2)])).hi = 0xFFFFFFFF := by decide
theorem test_div_by_zero :
    after (ready 0x0043001A [(2, 9)]) =
      { ready 0x0043001A [(2, 9)] with
        status := .halted, halt := ⟨.divisionByZeroError, 0x00400000, some 0x0043001A, none⟩ } := by decide
/-- The alternative rounding (section 2.2). -/
theorem test_div_floor :
    quotient .floor (-7) 2 = -4 ∧ remainder .floor (-7) 2 = 1 ∧ quotient .floor 7 (-2) = -4 ∧
      remainder .floor 7 (-2) = -1 := by decide
theorem test_mflo : (after { ready 0x00000812 [] with lo := 0xCAFEBABE }).reg 1 = 0xCAFEBABE := by decide
theorem test_lw_negative_offset :
    (after (poke 0x10000000 0x01020304 (ready 0x8C41FFFC [(2, 0x10000004)]))).reg 1 = 0x01020304 := by decide
theorem test_lw_misaligned :
    (after (ready 0x8C410002 [(2, 0x10000000)])).halt =
      ⟨.alignmentError, 0x00400000, some 0x8C410002, some 0x10000002⟩ := by decide
theorem test_sw_stores :
    (after (ready 0xAC410008 [(2, 0x7FFFFFF0), (1, 0x12345678)])).wordAt 0x7FFFFFF8 = 0x12345678 := by decide
theorem test_sw_misaligned :
    (after (ready 0xAC41FFFE [(2, 0x10000000), (1, 1)])).halt.faultAddr = some 0x0FFFFFFE := by decide
theorem test_beq_taken : (after (readyAt 0x00400008 0x10430004 [])).pc = 0x0040001C := by decide
theorem test_beq_backward : (after (ready 0x10438000 [(2, 1), (3, 1)])).pc = 0x003E0004 := by decide
theorem test_bne_taken : (after (readyAt 0x00400010 0x1443FFFE [(2, 1)])).pc = 0x0040000C := by decide
theorem test_bne_not_taken : (after (readyAt 0x00400010 0x1443FFFE [(2, 1), (3, 1)])).pc = 0x00400014 := by decide
theorem test_j_region : (after (readyAt 0x1000000C 0x08100000 [])).pc = 0x10400000 := by decide
theorem test_j_example : (after (readyAt 0x00400018 0x08100002 [])).pc = 0x00400008 := by decide
theorem test_jal_links :
    (after (ready 0x0C100004 [])).reg 31 = 0x00400004 ∧ (after (ready 0x0C100004 [])).pc = 0x00400010 := by decide
theorem test_jr_misaligned : (after (ready 0x01000008 [(8, 0x00400006)])).pc = 0x00400006 := by decide

/-! ### Fetch, halts and the host (sections 1, 2.5, P8, P10) -/

theorem test_illegal_word :
    (after (ready 0xFFFFFFFF [])).halt = ⟨.decodeError, 0x00400000, some 0xFFFFFFFF, none⟩ := by decide
theorem test_misaligned_pc :
    (after (State.reset.setPc 0x00000006)).halt = ⟨.alignmentError, 6, none, some 6⟩ := by decide
theorem test_power_on : (after State.reset).halt = ⟨.ended, 0x00400000, none, none⟩ := by decide
theorem test_halted_has_no_step : step (after State.reset) = .fault .halted := rfl
theorem test_run_stops_at_illegal_word :
    (loadProgram [0x20080001, 0xFFFFFFFF, 0x20080002]).map (fun s => ((run 100 s).cycles, (run 100 s).state.pc)) =
      some (1, 0x00400004) := by decide
theorem test_dumpMemory_wraps :
    dumpMemory (poke 0 0x55 State.reset) 0xFFFFFFFC 2 = some [0, 0x55] ∧ dumpMemory State.reset 2 1 = none := by
  decide

/-! ### The shared operations -/

theorem test_memory_canonical_after_zero : (poke 8 0 (poke 8 0x01000002 State.reset)).mem = [] := by decide
theorem test_memory_wf_refuses :
    Memory.wf [(4, 1), (4, 2)] = false ∧ Memory.wf [(5, 1), (4, 2)] = false ∧ Memory.wf [(4, 0)] = false ∧
      Memory.wf [(2 ^ 32, 1)] = false ∧ Memory.wf [(4, 1), (5, 2)] = true := by decide
theorem test_withFetchWord_moves_bad_pc : (readyAt 2 0x20080005 []).pc = 0x00400000 := by decide
theorem test_core_reset : core.reset = State.reset := rfl

/-! ### Witnesses of the statements' hypotheses -/

/-- Fetching, from its five conditions together. -/
theorem fetches_ready (s : State) (w : Word) (h : s.status = .running ∧ s.pc.toNat % 4 = 0 ∧
    Config.textBase ≤ s.pc.toNat ∧ s.pc.toNat < Config.textBase + 4 * s.textWords ∧ s.wordAt s.pc = w) :
    s.Fetches w := ⟨h.1, h.2.1, h.2.2.1, h.2.2.2.1, h.2.2.2.2⟩

theorem wit_DecodeOfEncodeIsIdentity : (Instr.lw 31 0 0x8000).wellFormed = true := rfl
theorem wit_IgnoredFieldsDoNotChangeDecode :
    decode 0x03E00020 = .instr (.add 0 31 0) ∧ (0x03E007E0 : Word) ≠ 0x03E00020 ∧
      (0x03E007E0 : Word) &&& (Instr.add 0 31 0).usedBits = 0x03E00020 &&& (Instr.add 0 31 0).usedBits := by decide
theorem wit_EncodeOfDecodeKeepsUsedBits : decode 0x00E30900 = .instr (.sll 1 3 4) := by decide
theorem wit_UnmappedWordsAreUnsupported :
    decode 0xFC000000 = .unsupported 0xFC000000 ∧ decode 0x00000010 = .unsupported 0x00000010 ∧
      decode 0x0000003F = .unsupported 0x0000003F ∧ decode 0x04000000 = .unsupported 0x04000000 := by decide
theorem wit_StepRunsDecodedInstruction_instr :
    (ready 0x20080005 []).Fetches 0x20080005 ∧ decode 0x20080005 = .instr (.addi 8 0 5) :=
  ⟨fetches_ready _ _ (by decide), by decide⟩
/-- The last word of a text of four, unsupported. -/
theorem wit_StepRunsDecodedInstruction_unsupported :
    (readyAt 0x0040000C 0xFFFFFFFF []).Fetches 0xFFFFFFFF ∧ decode 0xFFFFFFFF = .unsupported 0xFFFFFFFF :=
  ⟨fetches_ready _ _ (by decide), by decide⟩
theorem wit_StepExistsExactlyWhenRunning :
    (after State.reset).status = .halted ∧ State.reset.status = .running := by decide
/-- A RUNNING machine, its text of one word, at a given pc. -/
def standing (pc : Word) : State := (ready 0 []).setPc pc
/-- A misaligned pc in the text, just past it, and at the top of the space. -/
theorem wit_FetchHaltsInOrder_misaligned_inside :
    (standing 0x00400002).status = .running ∧ (standing 0x00400002).pc.toNat % 4 ≠ 0 := by decide
theorem wit_FetchHaltsInOrder_misaligned_atEnd :
    (standing 0x00400005).status = .running ∧ (standing 0x00400005).pc.toNat % 4 ≠ 0 := by decide
theorem wit_FetchHaltsInOrder_misaligned_top :
    (standing 0xFFFFFFFF).status = .running ∧ (standing 0xFFFFFFFF).pc.toNat % 4 ≠ 0 := by decide
/-- An aligned pc just below the text, and just past it. -/
theorem wit_FetchHaltsInOrder_below :
    (standing 0x003FFFFC).status = .running ∧ (standing 0x003FFFFC).pc.toNat % 4 = 0 ∧
      (standing 0x003FFFFC).pc.toNat < Config.textBase := by decide
theorem wit_FetchHaltsInOrder_above :
    (standing 0x00400004).status = .running ∧ (standing 0x00400004).pc.toNat % 4 = 0 ∧
      Config.textBase + 4 * (standing 0x00400004).textWords ≤ (standing 0x00400004).pc.toNat := by decide
theorem wit_HaltsArePrecise :
    ∃ t, step (ready 0x0043001A [(2, 9)]) = .next t ∧ t.status = .halted := ⟨_, rfl, rfl⟩
/-- One halt of each kind: misaligned fetch, end, illegal word, misaligned load and store, zero divisor. -/
theorem wit_EveryHaltIsInTheTable :
    [State.reset.setPc 6, State.reset, ready 0xFFFFFFFF [], ready 0x8C410002 [], ready 0xAC410001 [],
      ready 0x0043001A []].map (fun s => ((after s).status, (after s).halt.cause)) =
    [(.halted, .alignmentError), (.halted, .ended), (.halted, .decodeError), (.halted, .alignmentError),
      (.halted, .alignmentError), (.halted, .divisionByZeroError)] := by decide
theorem wit_RegisterZeroIsForced : (1 : RegIdx) ≠ 0 ∧ (31 : RegIdx) ≠ 0 := by decide
theorem wit_OnlyDestinationChanges :
    ∃ t, exec (.jal 0) State.reset = .next t ∧ t.reg 31 ≠ State.reset.reg 31 := ⟨_, rfl, by decide⟩
theorem wit_AddiInstruction : opField 0x2041FFFF = 0x08 := by decide
/-- -7 by 2, and INT_MIN by -1. -/
theorem wit_DivTruncatesTowardZero :
    (withRegs [(2, 0xFFFFFFF9), (3, 2)]).reg 3 ≠ 0 ∧ ((withRegs [(2, 0xFFFFFFF9), (3, 2)]).reg 2).toInt = -7 ∧
      ((withRegs [(2, 0xFFFFFFF9), (3, 2)]).reg 3).toInt = 2 ∧
      (-7 * 2 : Int).sign * (((-7 : Int).natAbs / (2 : Int).natAbs : Nat) : Int) = -3 ∧ (-7 : Int) - -3 * 2 = -1 := by
  decide
theorem wit_DivTruncatesTowardZero_wrap :
    (withRegs [(2, 0x80000000), (3, 0xFFFFFFFF)]).reg 3 ≠ 0 ∧
      ((withRegs [(2, 0x80000000), (3, 0xFFFFFFFF)]).reg 2).toInt = -2147483648 ∧
      ((withRegs [(2, 0x80000000), (3, 0xFFFFFFFF)]).reg 3).toInt = -1 := by decide
theorem wit_FloorRoundingLaw :
    (2 : Int) ≠ 0 ∧ (0 : Int) < 2 ∧ (-2 : Int) < 0 ∧ (0 : Int) ≤ -7 * -2 ∧ (0 : Int) ≤ 0 * -2 := by decide
theorem wit_DivByZeroHalts :
    (withRegs [(2, 9)]).reg 3 = 0 ∧ State.reset.reg 3 = 0 ∧ (withRegs [(0, 9)]).reg 0 = 0 := by decide
theorem wit_MfloInstruction : opField 0x03FF4FD2 = 0x00 ∧ functField 0x03FF4FD2 = 0x12 := by decide
theorem wit_OnlyMultDivWriteHiLo :
    ∃ t, exec (.mult 2 3) (withRegs [(2, 0xFFFFFFFF), (3, 2)]) = .next t ∧
      t.hi ≠ (withRegs [(2, 0xFFFFFFFF), (3, 2)]).hi := ⟨_, rfl, by decide⟩
theorem wit_OnlyMultDivWriteHiLo_div :
    ∃ t, exec (.div 2 3) (withRegs [(2, 7), (3, 2)]) = .next t ∧ t.lo ≠ (withRegs [(2, 7), (3, 2)]).lo :=
  ⟨_, rfl, by decide⟩
theorem wit_MemoryPrimitives :
    (0xFFFFFFFD : Word).toNat % 4 ≠ 0 ∧ (0xFFFFFFFC : Word).toNat % 4 = 0 ∧
      (0xFFFFFFFC : Word).toNat / 4 = (0xFFFFFFFF : Word).toNat / 4 ∧
      (0xFFFFFFFB : Word).toNat / 4 ≠ (0xFFFFFFFC : Word).toNat / 4 := by decide
/-- An address that wraps to 0, the top word, and the first misaligned one. -/
theorem wit_LwLoadsAlignedWord :
    (0x00000000 : Word) = word (((withRegs [(2, 0xFFFFFFFC)]).reg 2).toNat + ((4 : BitVec 16).signExtend 32).toNat) ∧
      (0xFFFFFFFC : Word) = word ((State.reset.reg 2).toNat + ((0xFFFC : BitVec 16).signExtend 32).toNat) ∧
      (0x00000001 : Word) = word ((State.reset.reg 2).toNat + ((1 : BitVec 16).signExtend 32).toNat) ∧
      (0x00000000 : Word).toNat % 4 = 0 ∧ (0xFFFFFFFC : Word).toNat % 4 = 0 ∧ (0x00000001 : Word).toNat % 4 ≠ 0 := by
  decide
/-- A misaligned base and offset with an aligned sum, and a misaligned sum. -/
theorem wit_SwStoresAlignedWord :
    (0x10000004 : Word) = word (((withRegs [(2, 0x10000003)]).reg 2).toNat + ((1 : BitVec 16).signExtend 32).toNat) ∧
      (0x0FFFFFFE : Word) =
        word (((withRegs [(2, 0x10000000)]).reg 2).toNat + ((0xFFFE : BitVec 16).signExtend 32).toNat) ∧
      (0x10000004 : Word).toNat % 4 = 0 ∧ (0x0FFFFFFE : Word).toNat % 4 ≠ 0 := by decide
/-- The store to the top of the stack and a load of it through another base (W5). -/
theorem wit_StoreThenLoadReturnsValue :
    ∃ t, exec (.sw 9 29 0) (withRegs [(29, 0x7FFFFFFC), (9, 0x80000001)]) = .next t ∧
      (effectiveAddress ((withRegs [(29, 0x7FFFFFFC), (9, 0x80000001)]).reg 29) 0).toNat % 4 = 0 ∧
      effectiveAddress ((t.setReg 2 0x80000000).reg 2) 0xFFFC =
        effectiveAddress ((withRegs [(29, 0x7FFFFFFC), (9, 0x80000001)]).reg 29) 0 ∧
      (∀ k : Nat, k < 4 → (t.setReg 2 0x80000000).byte (0x7FFFFFFC + k) = t.byte (0x7FFFFFFC + k)) :=
  ⟨_, rfl, by decide, by decide, fun _ _ => rfl⟩
theorem wit_ByteOrderIsUnobservable (b : Word) :
    Memory.loadWord .big (Memory.storeWord .big [] 8 0x01020304) b =
      Memory.loadWord .little (Memory.storeWord .little [] 8 0x01020304) b := by
  rw [Sys2Proof.Machine.loadWord_storeWord, Sys2Proof.Machine.loadWord_storeWord]; rfl
theorem wit_CanonicalMemoryIsItsWords : Memory.wf [(5, 1), (4294967295, 2)] = true := by decide
theorem wit_OnlySwChangesMemory :
    ∃ t, exec (.sw 1 2 8) (withRegs [(1, 0x12345678)]) = .next t ∧ t.byte 8 ≠ (withRegs [(1, 0x12345678)]).byte 8 :=
  ⟨_, rfl, by decide⟩
/-- A store on the one word of the text, and one just past it. -/
theorem wit_StoreIsSeenByFetch :
    ∃ t t', exec (.sw 1 2 0) (ready 0 [(2, 0x00400000)]) = .next t ∧
      exec (.sw 1 2 4) (ready 0 [(2, 0x00400000)]) = .next t' ∧
      effectiveAddress ((ready 0 [(2, 0x00400000)]).reg 2) 0 = 0x00400000 ∧
      effectiveAddress ((ready 0 [(2, 0x00400000)]).reg 2) 4 = 0x00400004 ∧
      (0x00400000 : Word).toNat % 4 = 0 ∧ (0x00400004 : Word).toNat % 4 = 0 ∧
      Config.textBase ≤ (0x00400000 : Word).toNat ∧
      (0x00400000 : Word).toNat < Config.textBase + 4 * (ready 0 [(2, 0x00400000)]).textWords ∧
      Config.textBase + 4 * (ready 0 [(2, 0x00400000)]).textWords ≤ (0x00400004 : Word).toNat := by
  refine ⟨_, _, rfl, rfl, ?_⟩; decide
theorem wit_BeqInstruction : opField 0x1043FFFF = 0x04 := by decide
theorem wit_OnlyJrMisalignsPc :
    ∃ t, step (ready 0x01000008 [(8, 0x00400006)]) = .next t ∧
      (ready 0x01000008 [(8, 0x00400006)]).pc.toNat % 4 = 0 ∧ t.pc.toNat % 4 ≠ 0 := ⟨_, rfl, by decide, by decide⟩
theorem wit_OnlyControlTransfersRedirect :
    ∃ t t', exec (.add 1 2 3) State.reset = .next t ∧ exec (.div 1 2) State.reset = .next t' ∧
      (Instr.add 1 2 3).redirects = false ∧ (Instr.div 1 2).redirects = false := ⟨_, _, rfl, rfl, rfl, rfl⟩
/-- A state that meets the invariant and has a next state; a halted one that meets it. -/
theorem wit_StepKeepsInvariant :
    (ready 0x20080005 []).Inv ∧ ∃ t, step (ready 0x20080005 []) = .next t :=
  ⟨⟨by decide, by decide, by decide, by decide, ⟨rfl, rfl⟩, by decide⟩, _, rfl⟩
theorem wit_Inv_halted : (after (ready 0x8C410002 [])).Inv :=
  ⟨by decide, by decide, by decide, by decide, ⟨2, by decide, by decide, by decide⟩, by decide⟩
theorem wit_StepKeepsTextExtent : ∃ t, step (ready 0xAC400000 []) = .next t := ⟨_, rfl⟩
/-- A load at an aligned address, a load at a misaligned one, a branch, and an unsupported word. -/
theorem wit_DatapathCycleIsStep :
    (ready 0x8C410000 []).Fetches 0x8C410000 ∧ (ready 0x8C410001 []).Fetches 0x8C410001 ∧
      (ready 0x10438000 []).Fetches 0x10438000 ∧ (ready 0xFFFFFFFF []).Fetches 0xFFFFFFFF :=
  ⟨fetches_ready _ _ (by decide), fetches_ready _ _ (by decide), fetches_ready _ _ (by decide),
    fetches_ready _ _ (by decide)⟩
theorem length_replicate_words (n : Nat) (h : 1072693248 < n) :
    2 ^ 32 < Config.textBase + 4 * (List.replicate n (0 : Word)).length := by
  rw [List.length_replicate, Config.textBase]; omega
/-- The empty program, and one of two words. -/
theorem wit_LoadProgramReplacesState :
    Config.textBase + 4 * ([] : List Word).length ≤ 2 ^ 32 ∧
      Config.textBase + 4 * [(0x20080005 : Word), 0x01000008].length ≤ 2 ^ 32 := by decide
/-- A program of the first size that does not fit. -/
theorem wit_LoadProgramReplacesState_tooLarge :
    2 ^ 32 < Config.textBase + 4 * (List.replicate 1072693249 (0 : Word)).length :=
  length_replicate_words _ (by decide)
theorem wit_RunStopsAtBudgetOrHalt : (run 3 (ready 0x20080005 [])).cycles < 3 := by decide
theorem wit_DumpMemoryReportsWords : (0xFFFFFFFC : Word).toNat % 4 = 0 ∧ (0xFFFFFFFF : Word).toNat % 4 ≠ 0 := by decide
theorem wit_ObservationAtHalt : ∃ o, observe (after State.reset) = some o := ⟨_, rfl⟩

end Sys2Proof.Tests
end

section
/-! SUPPORT. The proofs about the machine's state: the register file. -/

namespace Sys2Proof.Machine

/-- Read after write where the write is not discarded; the target's own nonzero index covers the read of 0. -/
theorem reg_setReg_of_ne (s : State) (d r : RegIdx) (v : Word) (hd : d ≠ 0) :
    (s.setReg d v).reg r = if r = d then v else s.reg r := by
  rw [reg_setReg]
  by_cases hr : r = 0
  · subst hr
    rw [if_pos rfl, if_neg hd.symm, reg_zero]
  · rw [if_neg hr]

/-- Settles O13, from the register file's read after write (10_state.md R21). -/
theorem registerZeroIsForced : Obligations.RegisterZeroIsForced :=
  ⟨reg_zero, setReg_zero, reg_setReg_of_ne⟩

end Sys2Proof.Machine
end

section
/-! SUPPORT. The memory primitives `memRead` and `memWrite`: their answers at an aligned and at a misaligned address,
and the words they read and replace. -/

namespace Sys2Proof.Machine

/-- Two addresses have the same word base exactly when they have the same word index `a[31:2]`. -/
theorem wordBase_eq_wordBase_iff (a b : Word) : wordBase a = wordBase b ↔ a.toNat / 4 = b.toNat / 4 := by
  rw [wordBase_eq, wordBase_eq]
  omega

/-- A loaded word depends on the address through its word index only. -/
theorem loadWord_congr (o : ByteOrder) (m : Memory) (a b : Word) (h : a.toNat / 4 = b.toNat / 4) :
    Memory.loadWord o m a = Memory.loadWord o m b := by
  unfold Memory.loadWord
  rw [(wordBase_eq_wordBase_iff a b).2 h]

theorem loadWord_storeWord_same (o : ByteOrder) (m : Memory) (a v : Word) :
    Memory.loadWord o (Memory.storeWord o m a v) a = v := by
  rw [loadWord_storeWord, if_pos rfl]

theorem loadWord_storeWord_of_ne (o : ByteOrder) (m : Memory) (a v b : Word) (h : b.toNat / 4 ≠ a.toNat / 4) :
    Memory.loadWord o (Memory.storeWord o m a v) b = Memory.loadWord o m b := by
  rw [loadWord_storeWord, if_neg (mt (wordBase_eq_wordBase_iff b a).1 h)]

theorem memRead_of_aligned (m : Memory) (a : Word) (h : a.toNat % 4 = 0) :
    memRead m a = .ok (Memory.loadWord Config.byteOrder m a) :=
  if_pos ((aligned_iff a).2 h)

theorem memRead_of_misaligned (m : Memory) (a : Word) (h : a.toNat % 4 ≠ 0) :
    memRead m a = .error (raiseAlignment a) :=
  if_neg (mt (aligned_iff a).1 h)

theorem memWrite_of_aligned (m : Memory) (a v : Word) (h : a.toNat % 4 = 0) :
    memWrite m a v = .ok (Memory.storeWord Config.byteOrder m a v) :=
  if_pos ((aligned_iff a).2 h)

theorem memWrite_of_misaligned (m : Memory) (a v : Word) (h : a.toNat % 4 ≠ 0) :
    memWrite m a v = .error (raiseAlignment a) :=
  if_neg (mt (aligned_iff a).1 h)

/-- Settles O26, from the primitives' answers and load after store by words (20_memory.md R42, R43). -/
theorem memoryPrimitives : Obligations.MemoryPrimitives := by
  refine ⟨fun m a v h => ⟨memRead_of_misaligned m a h, memWrite_of_misaligned m a v h⟩, ?_, ?_⟩
  · intro m a b ha hab
    rw [memRead_of_aligned m a ha, loadWord_congr _ m a b hab]
  · intro m a v ha
    refine ⟨_, memWrite_of_aligned m a v ha, ?_, fun b hb => loadWord_storeWord_of_ne _ m a v b hb⟩
    rw [memRead_of_aligned _ a ha, loadWord_storeWord_same]

end Sys2Proof.Machine
end

section
/-! SUPPORT. The proofs about the cycle: a step on a HALTED machine, on a machine whose fetch answers a word, and the
two ends of a step, completion and halt (40_cycle.md R80 to R86). -/

namespace Sys2Proof.Machine

/-! ### The decoder's variant -/

theorem eq_of_decodeSpecial_unsupported {w v : Word} (h : decodeSpecial w = .unsupported v) : v = w := by
  unfold decodeSpecial at h
  split at h <;> cases h
  rfl

/-- The unsupported variant carries the word that was decoded (30_encoding.md R72). -/
theorem eq_of_decode_unsupported {w v : Word} (h : decode w = .unsupported v) : v = w := by
  unfold decode at h
  split at h
  case h_1 => exact eq_of_decodeSpecial_unsupported h
  all_goals cases h
  rfl

/-! ### Halts -/

/-- A halt changes no register, HI, LO, byte of memory or text extent (60_exceptions.md R152). -/
theorem haltWith_haltedFor (s : State) (r : Raise) (w : Option Word) : HaltedFor s (s.haltWith r w) r.cause where
  status := rfl
  cause := rfl
  regs _ := rfl
  hi := rfl
  lo := rfl
  bytes _ := rfl
  textWords := rfl

/-- An executed instruction completes, and so leaves the status alone, or halts with a record of its own word. -/
theorem ExecShape.status_eq_or_haltInstr {i : Instr} {s t : State} (h : ExecShape i s t) :
    t.status = s.status ∨ ∃ r, t = s.haltInstr r := by
  cases h with
  | register d v => exact .inl (by simp)
  | transfer d v target _ => exact .inl (by simp)
  | hiLo vh vl _ => exact .inl (by simp)
  | store rt rs imm _ _ => exact .inl (by simp)
  | misaligned rt rs imm _ _ => exact .inr ⟨_, rfl⟩
  | divisionByZero rs rt _ _ => exact .inr ⟨_, rfl⟩

/-! ### Steps -/

theorem step_of_halted {s : State} (h : s.status = .halted) : step s = .fault .halted := by
  simp only [step, h]

theorem run_of_halted {s : State} (h : s.status = .halted) (n : Nat) : run n s = ⟨0, s⟩ := by
  cases n with
  | zero => rfl
  | succ n => simp only [run, step_of_halted h]

/-- Under these conditions fetch answers the word at pc: it is aligned, so no raise, and in the text, so no END (R81). -/
theorem State.Fetches.fetch_eq_ok {s : State} {w : Word} (h : s.Fetches w) : s.fetch = .ok w := by
  have ht : s.inText = true := (inText_iff s).2 ⟨h.above, h.below⟩
  rcases fetch_eq s with ⟨hmis, _⟩ | ⟨_, hout, _⟩ | ⟨_, _, hok⟩
  · exact absurd h.aligned hmis
  · simp [ht] at hout
  · rw [hok, ← h.word]
    rfl

theorem State.Fetches.step_of_instr {s : State} {w : Word} {i : Instr} (h : s.Fetches w)
    (hd : decode w = .instr i) : step s = exec i s := by
  simp only [step, h.status, h.fetch_eq_ok, hd]

theorem State.Fetches.step_of_unsupported {s : State} {w v : Word} (h : s.Fetches w)
    (hd : decode w = .unsupported v) :
    step s = .next (s.haltWith { cause := .decodeError, faultAddr := none } (some w)) := by
  simp only [step, h.status, h.fetch_eq_ok, hd, eq_of_decode_unsupported hd]

/-- Settles O8: the fetch answers the word, and the step goes by what it decodes to (40_cycle.md R83,
60_exceptions.md R153). -/
theorem stepRunsDecodedInstruction : Obligations.StepRunsDecodedInstruction := fun s _ hw =>
  ⟨fun _ => hw.step_of_instr, fun _ hd =>
    ⟨_, hw.step_of_unsupported hd, haltWith_haltedFor s _ _, rfl, rfl⟩⟩

/-- Settles O9, from what a step can do: fetch and decode errors halt, and an executed instruction has one of the
shapes of `ExecShape`, each a completion or a halt (40_cycle.md R80). -/
theorem stepExistsExactlyWhenRunning : Obligations.StepExistsExactlyWhenRunning := by
  refine ⟨fun s hs => ⟨step_of_halted hs, run_of_halted hs⟩, fun s hs => ?_⟩
  rcases step_cases (s := s) rfl with
    ⟨hhalted, _⟩ | ⟨_, ⟨r, _, hstep⟩ | ⟨w, _, _, hstep⟩ | ⟨i, _, hdecode, hstep⟩⟩
  · simp [hs] at hhalted
  · exact ⟨_, hstep, .inr (haltWith_haltedFor s r none)⟩
  · exact ⟨_, hstep, .inr (haltWith_haltedFor s _ (some w))⟩
  · obtain ⟨t, hexec, hshape⟩ := exec_shape i s
    refine ⟨t, hstep.trans hexec, ?_⟩
    rcases hshape.status_eq_or_haltInstr with hstatus | ⟨r, rfl⟩
    · exact .inl ⟨i, hdecode, hexec, hstatus.trans hs⟩
    · exact .inr (haltWith_haltedFor s r _)

end Sys2Proof.Machine
end

section
/-! SUPPORT. The proofs about the ALU family: what an instruction that ends in `writeBack` leaves of the state, and
`addi` (41_alu.md R99). -/

namespace Sys2Proof.Machine

/-- A write-back completes with `x[d] <- v` and `pc <- pc + 4`, everything else unchanged (40_cycle.md R84, R85). -/
theorem writeBack_completed (d : RegIdx) (v : Word) (s : State) :
    ∃ t, writeBack d v s = .next t ∧ Completed s t (s.regsWith d v) s.hi s.lo (s.pc + 4) s.byte := by
  refine ⟨_, writeBack_eq d v s, ?_⟩
  exact {
    regs := fun r => reg_setReg s d r v
    hi := by simp
    lo := by simp
    pc := rfl
    bytes := fun a => by simp [State.byte]
    status := by simp
    halt := by simp
    textWords := by simp }

/-- The ALU's sum is the sum of the unsigned values, wrapped (R90). -/
theorem alu_add_eq_word (a b : Word) : alu .add a b = word (a.toNat + b.toNat) :=
  BitVec.add_def a b

theorem decode_of_opField_addi {w : Word} (h : opField w = 0x08) :
    decode w = .instr (.addi (rtField w) (rsField w) (immField w)) := by
  unfold decode
  rw [h]
  rfl

/-- `addi` is a write-back of the wrapped sum (R99). -/
theorem exec_addi (rt rs : RegIdx) (imm : BitVec 16) (s : State) :
    exec (.addi rt rs imm) s = writeBack rt (word ((s.reg rs).toNat + (simm imm).toNat)) s :=
  congrArg (writeBack rt · s) (alu_add_eq_word _ _)

/-- Settles O19: opcode 0x08 selects the decoder's `addi` row, and its execution is a write-back of the wrapped sum. -/
theorem addiInstruction : Obligations.AddiInstruction := by
  refine ⟨fun _ => decode_of_opField_addi, fun rt rs imm s => ?_⟩
  rw [exec_addi]
  exact writeBack_completed rt _ s

end Sys2Proof.Machine
end

section
/-! SUPPORT. The proofs about the halts an instruction raises (60_exceptions.md R151, R155). -/

namespace Sys2Proof.Machine

/-- A zero divisor is tested before the dividend is read, so the dividend does not occur (R155). -/
theorem exec_div_of_divisor_eq_zero {rs rt : RegIdx} {s : State} (h : s.reg rt = 0) :
    exec (.div rs rt) s = .next (s.haltInstr { cause := .divisionByZeroError, faultAddr := none }) :=
  if_pos h

/-- Settles O23: with divisor 0 `div` is the halt for DIVISION_BY_ZERO_ERROR, and a halt changes no register, HI, LO
or byte of memory. -/
theorem divByZeroHalts : Obligations.DivByZeroHalts := fun _ _ s h =>
  ⟨_, exec_div_of_divisor_eq_zero h, haltWith_haltedFor s _ (some s.instrWord)⟩

end Sys2Proof.Machine
end

section
/-! SUPPORT. The proofs about the host operations: what the register snapshot holds (70_reset_and_hazards.md R184). -/

namespace Sys2Proof.Machine

/-- The snapshot goes through the register file's read, which answers 0 for index 0 (R184, R21). -/
@[simp] theorem dumpRegisters_x_getElem (s : State) (r : RegIdx) : (dumpRegisters s).x[r.val] = s.reg r :=
  Vector.getElem_ofFn r.isLt

/-- Settles O49: each entry is the register file's read at its index, and register 0 reads as 0. -/
theorem dumpRegistersReportsAll : Obligations.DumpRegistersReportsAll := fun s =>
  ⟨dumpRegisters_x_getElem s, (dumpRegisters_x_getElem s 0).trans (reg_zero s), rfl, rfl⟩

end Sys2Proof.Machine
end

section
/-! SUPPORT. The proofs about the encoding: what a row of the opcode table selects is what the decoder answers, with the
operands read from the format's fields, and the encoder puts back every bit the decoder uses (30_encoding.md R60 to
R73). -/

namespace Sys2Proof

open Sys2Proof.Laws

/-! ### Fields under a mask -/

/-- A mask that holds all of a field keeps it. -/
theorem extract_and_of_allOnes (w m : Word) (start len : Nat) (h : m.extractLsb' start len = BitVec.allOnes len) :
    (w &&& m).extractLsb' start len = w.extractLsb' start len := by
  rw [BitVec.extractLsb'_and, h, BitVec.and_allOnes]

/-- A mask that holds none of a field clears it. -/
theorem extract_and_of_zero (w m : Word) (start len : Nat) (h : m.extractLsb' start len = 0#len) :
    (w &&& m).extractLsb' start len = 0#len := by
  rw [BitVec.extractLsb'_and, h, BitVec.and_zero]

/-! ### A word from its fields -/

/-- A word of opcode 0 is the R-type word of its fields (R61). -/
theorem rType_fields (w : Word) (h : opField w = 0) :
    rType (rsField w) (rtField w) (rdField w) (shamtField w) (functField w) = w := by
  rw [rType, show (0#6 : BitVec 6) = opField w from h.symm]
  simp only [opField, rsField, rtField, rdField, shamtField, functField, fieldOfReg_regOfField,
    BitVec.extractLsb'_append_extractLsb'_eq_extractLsb']
  exact BitVec.extractLsb'_eq_self

/-- Clearing bits of a word of opcode 0 clears them in its fields. -/
theorem rType_fields_and (w m : Word) (h : opField w = 0) (hm : m.extractLsb' 26 6 = BitVec.allOnes 6) :
    rType (rsField (w &&& m)) (rtField (w &&& m)) (rdField (w &&& m)) (shamtField (w &&& m)) (functField (w &&& m)) =
      w &&& m :=
  rType_fields _ ((extract_and_of_allOnes w m 26 6 hm).trans h)

/-- A word is the I-type word of its fields (R62). -/
theorem iType_fields (w : Word) : iType (opField w) (rsField w) (rtField w) (immField w) = w := by
  simp only [iType, opField, rsField, rtField, immField, fieldOfReg_regOfField,
    BitVec.extractLsb'_append_extractLsb'_eq_extractLsb']
  exact BitVec.extractLsb'_eq_self

/-- A word is the J-type word of its fields (R63). -/
theorem jType_fields (w : Word) : jType (opField w) (targetField w) = w := by
  simp only [jType, opField, targetField, BitVec.extractLsb'_append_extractLsb'_eq_extractLsb']
  exact BitVec.extractLsb'_eq_self

/-! ### The decoder by mnemonic -/

/-- The instruction of a mnemonic with its operands read from the word's fields, in R71's order. -/
def Mnemonic.read : Mnemonic → Word → Instr
  | .sll, w => .sll (rdField w) (rtField w) (shamtField w)
  | .jr, w => .jr (rsField w)
  | .mflo, w => .mflo (rdField w)
  | .mult, w => .mult (rsField w) (rtField w)
  | .div, w => .div (rsField w) (rtField w)
  | .add, w => .add (rdField w) (rsField w) (rtField w)
  | .sub, w => .sub (rdField w) (rsField w) (rtField w)
  | .and, w => .and (rdField w) (rsField w) (rtField w)
  | .or, w => .or (rdField w) (rsField w) (rtField w)
  | .xor, w => .xor (rdField w) (rsField w) (rtField w)
  | .nor, w => .nor (rdField w) (rsField w) (rtField w)
  | .slt, w => .slt (rdField w) (rsField w) (rtField w)
  | .j, w => .j (targetField w)
  | .jal, w => .jal (targetField w)
  | .beq, w => .beq (rsField w) (rtField w) (immField w)
  | .bne, w => .bne (rsField w) (rtField w) (immField w)
  | .addi, w => .addi (rtField w) (rsField w) (immField w)
  | .lw, w => .lw (rtField w) (rsField w) (immField w)
  | .sw, w => .sw (rtField w) (rsField w) (immField w)

@[simp] theorem mnemonic_read (m : Mnemonic) (w : Word) : (m.read w).mnemonic = m := by
  cases m <;> rfl

/-- Every row fixes the opcode (R64). -/
theorem opField_of_selects {w : Word} {m : Mnemonic} (h : (opcodeRow m).selects w) :
    opField w = opField (opcodeRow m).pattern := by
  rw [← h]
  exact (extract_and_of_allOnes w _ 26 6 (by cases m <;> rfl)).symm

/-- A row whose mask holds the function code fixes it (R65). -/
theorem functField_of_selects {w : Word} {m : Mnemonic} (h : (opcodeRow m).selects w)
    (hm : (opcodeRow m).mask.extractLsb' 0 6 = BitVec.allOnes 6) :
    functField w = functField (opcodeRow m).pattern := by
  rw [← h]
  exact (extract_and_of_allOnes w _ 0 6 hm).symm

theorem decode_of_selects {w : Word} {m : Mnemonic} (h : (opcodeRow m).selects w) :
    decode w = .instr (m.read w) := by
  rw [decode, opField_of_selects h]
  cases m
  case j | jal | beq | bne | addi | lw | sw => rfl
  all_goals
    change decodeSpecial w = _
    rw [decodeSpecial, functField_of_selects h rfl]
    rfl

theorem selects_of_decodeSpecial {w : Word} {i : Instr} (hop : opField w = 0) (h : decodeSpecial w = .instr i) :
    (opcodeRow i.mnemonic).selects w ∧ i.mnemonic.read w = i := by
  unfold decodeSpecial at h
  split at h <;> cases h
  all_goals
    rename_i hfunct
    exact ⟨special_mask w _ hop hfunct, rfl⟩

/-- The decoder answers only what a row selects, with the operands read from the fields. -/
theorem selects_of_decode {w : Word} {i : Instr} (h : decode w = .instr i) :
    (opcodeRow i.mnemonic).selects w ∧ i.mnemonic.read w = i := by
  unfold decode at h
  split at h
  case h_1 hop => exact selects_of_decodeSpecial hop h
  all_goals cases h
  all_goals
    rename_i hop
    exact ⟨primary_mask w _ hop, rfl⟩

/-! ### The encoder by mnemonic -/

theorem encode_selects (i : Instr) : (opcodeRow i.mnemonic).selects (encode i) := by
  cases i with
  | sll => exact EncodingRow.sll ..
  | jr => exact EncodingRow.jr ..
  | mflo => exact EncodingRow.mflo ..
  | mult => exact EncodingRow.mult ..
  | div => exact EncodingRow.div ..
  | add => exact EncodingRow.add ..
  | sub => exact EncodingRow.sub ..
  | and => exact EncodingRow.and ..
  | or => exact EncodingRow.or ..
  | xor => exact EncodingRow.xor ..
  | nor => exact EncodingRow.nor ..
  | slt => exact EncodingRow.slt ..
  | j => exact EncodingRow.j ..
  | jal => exact EncodingRow.jal ..
  | beq => exact EncodingRow.beq ..
  | bne => exact EncodingRow.bne ..
  | addi => exact EncodingRow.addi ..
  | lw => exact EncodingRow.lw ..
  | sw => exact EncodingRow.sw ..

/-- What the encoder puts in, the decoder's extractors read. -/
theorem read_encode (i : Instr) : i.mnemonic.read (encode i) = i := by
  cases i <;>
    simp only [Instr.mnemonic, Mnemonic.read, encode, rsField_rType, rtField_rType, rdField_rType, shamtField_rType,
      rsField_iType, rtField_iType, immField_iType, targetField_jType]

/-- Decode inverts encode. -/
theorem decode_encode (i : Instr) : decode (encode i) = .instr i := by
  rw [decode_of_selects (encode_selects i), read_encode]

theorem encode_injective {i i' : Instr} (h : encode i = encode i') : i = i' :=
  Decoded.instr.inj (by rw [← decode_encode i, h, decode_encode i'])

/-- The encoder puts back every used bit of a word whose fields it is given, and zeros at the others. -/
theorem encode_read {w : Word} {m : Mnemonic} (h : (opcodeRow m).selects w) :
    encode (m.read w) = w &&& (m.read w).usedBits := by
  have hop := opField_of_selects h
  cases m
  case j | jal =>
    calc
      _ = jType (opField w) (targetField w) := by rw [hop]; rfl
      _ = w := jType_fields w
      _ = w &&& BitVec.allOnes 32 := BitVec.and_allOnes.symm
  case beq | bne | addi | lw | sw =>
    calc
      _ = iType (opField w) (rsField w) (rtField w) (immField w) := by rw [hop]; rfl
      _ = w := iType_fields w
      _ = w &&& BitVec.allOnes 32 := BitVec.and_allOnes.symm
  all_goals
    have hfunct := functField_of_selects h rfl
    simp only [Mnemonic.read, Instr.usedBits]
    refine Eq.trans ?_ (rType_fields_and w _ hop (by decide))
    simp (disch := decide) only [rsField, rtField, rdField, shamtField, functField, extract_and_of_allOnes,
      extract_and_of_zero] at hfunct ⊢
    rw [hfunct]
    rfl

/-- Which bits are used depends on the mnemonic alone. -/
theorem usedBits_read (i : Instr) (w : Word) : (i.mnemonic.read w).usedBits = i.usedBits := by
  cases i <;> rfl

/-- A row looks at used bits only. -/
theorem mask_subset_usedBits (i : Instr) :
    i.usedBits &&& (opcodeRow i.mnemonic).mask = (opcodeRow i.mnemonic).mask := by
  rw [← usedBits_read i 0]
  cases i.mnemonic <;> decide

theorem selects_congr {w w' : Word} {i : Instr} (h : w' &&& i.usedBits = w &&& i.usedBits)
    (hw : (opcodeRow i.mnemonic).selects w) : (opcodeRow i.mnemonic).selects w' := by
  rw [OpcodeRow.selects, ← mask_subset_usedBits i, ← BitVec.and_assoc] at hw ⊢
  rw [h, hw]

/-- Settles O1: the encoded word has its mnemonic's row, and the fields read from it are the operands put in. -/
theorem decodeOfEncodeIsIdentity : Obligations.DecodeOfEncodeIsIdentity := fun i _ => decode_encode i

/-- Settles O3: what the decoder answers is selected by its row and read from the fields. -/
theorem encodeOfDecodeKeepsUsedBits : Obligations.EncodeOfDecodeKeepsUsedBits := by
  intro w i h
  obtain ⟨hsel, hread⟩ := selects_of_decode h
  rw [← hread]
  exact encode_read hsel

/-- Settles O2: the other word has the same row, so it decodes; encoding both gives the same used bits, and the encoder
is injective. -/
theorem ignoredFieldsDoNotChangeDecode : Obligations.IgnoredFieldsDoNotChangeDecode := by
  intro w w' i h hagree
  have hdecode := decode_of_selects (selects_congr hagree (selects_of_decode h).1)
  have hencode : encode (i.mnemonic.read w') = encode i := by
    rw [encodeOfDecodeKeepsUsedBits w' _ hdecode, encodeOfDecodeKeepsUsedBits w i h, usedBits_read, hagree]
  rw [hdecode, encode_injective hencode]

/-- Settles O5: a row selects a word exactly when the decoder answers the row's mnemonic. -/
theorem decoderFollowsOpcodeTable : Obligations.DecoderFollowsOpcodeTable := by
  refine fun w m => ⟨fun h => ⟨m.read w, decode_of_selects h, mnemonic_read m w⟩, ?_⟩
  rintro ⟨i, h, rfl⟩
  exact (selects_of_decode h).1

theorem decodeSpecial_eq_unsupported_iff (w : Word) :
    decodeSpecial w = .unsupported w ↔
      functField w ∉ [0x00#6, 0x08#6, 0x12#6, 0x18#6, 0x1A#6, 0x20#6, 0x22#6, 0x24#6, 0x25#6, 0x26#6, 0x27#6,
        0x2A#6] := by
  unfold decodeSpecial
  split
  case h_13 => simp_all
  all_goals
    rename_i hfunct
    simp [hfunct]

/-- Settles O4: the mapped codes are the rows of the decoder's two matches, and the variant carries the decoded word. -/
theorem unmappedWordsAreUnsupported : Obligations.UnmappedWordsAreUnsupported := by
  refine fun w => ⟨?_, fun _ => Machine.eq_of_decode_unsupported⟩
  unfold decode
  split
  case h_1 hop => simp [hop, decodeSpecial_eq_unsupported_iff w]
  case h_9 => simp_all
  all_goals
    rename_i hop
    simp [hop]

/-- Settles O6: thirteen closed words. -/
theorem workedExampleWordsDecode : Obligations.WorkedExampleWordsDecode := by
  unfold Obligations.WorkedExampleWordsDecode
  decide

/-! ### The immediate -/

/-- The branch offset is 4 times the signed immediate, exactly: 18 bits are enough for it (R67). -/
theorem branchOffset_toInt (imm : BitVec 16) : (Machine.branchOffset imm).toInt = 4 * imm.toInt := by
  have hlo := BitVec.le_toInt imm
  have hhi := BitVec.toInt_lt (x := imm)
  rw [Machine.branchOffset, Machine.simm, BitVec.shiftLeft_eq_mul_twoPow, BitVec.toInt_mul,
    BitVec.toInt_signExtend_of_le (by decide), show (BitVec.twoPow 32 2).toInt = 4 from rfl, mul_comm]
  exact Int.bmod_eq_of_le (by omega) (by omega)

theorem branchOffset_toNat_mod (imm : BitVec 16) : (Machine.branchOffset imm).toNat % 4 = 0 := by
  rw [Machine.branchOffset, BitVec.toNat_shiftLeft, Nat.shiftLeft_eq]
  omega

/-- Settles O7, from the sign extension's value and the branch offset's. -/
theorem immediateKeepsSignedValue : Obligations.ImmediateKeepsSignedValue := by
  intro imm
  have hsimm : (Machine.simm imm).toInt = imm.toInt := BitVec.toInt_signExtend_of_le (by decide)
  have hlo := BitVec.le_toInt imm
  have hhi := BitVec.toInt_lt (x := imm)
  have hoff := branchOffset_toInt imm
  have hmod := branchOffset_toNat_mod imm
  omega

end Sys2Proof
end

section
/-! SUPPORT. What one step does, said once for a step that answers a next state, and the proofs that follow from it: the
invariant, the halt table, preciseness of halts and the text extent (40_cycle.md R86, 60_exceptions.md R151, R152). -/

namespace Sys2Proof.Machine

/-! ### The shapes of a step -/

/-- What a RUNNING machine's step leaves: one of the three halts before execute, or an executed instruction. -/
inductive StepShape (s : State) : State → Prop where
  /-- a misaligned pc -/
  | misalignedPc (h : s.pc.toNat % 4 ≠ 0) : StepShape s (s.haltWith (raiseAlignment s.pc) none)
  /-- END -/
  | outsideText (hpc : s.pc.toNat % 4 = 0) (ht : s.inText = false) :
      StepShape s (s.haltWith { cause := .ended, faultAddr := none } none)
  /-- an unsupported word -/
  | unsupported (hf : s.Fetches s.instrWord) (hd : decode s.instrWord = .unsupported s.instrWord) :
      StepShape s (s.haltWith { cause := .decodeError, faultAddr := none } (some s.instrWord))
  /-- an instruction, completed or halted -/
  | executed (i : Instr) (t : State) (hf : s.Fetches s.instrWord) (hd : decode s.instrWord = .instr i)
      (he : exec i s = .next t) (hs : ExecShape i s t) : StepShape s t

/-- A fetch that answers the word at pc met every condition of R81. -/
theorem fetches_of_fetch_eq_ok {s : State} (hs : s.status = .running) (hf : s.fetch = .ok s.instrWord) :
    s.Fetches s.instrWord := by
  rcases fetch_eq s with ⟨_, h⟩ | ⟨_, _, h⟩ | ⟨hpc, ht, _⟩
  · simp [h] at hf
  · simp [h] at hf
  · obtain ⟨habove, hbelow⟩ := (inText_iff s).1 ht
    exact ⟨hs, hpc, habove, hbelow, rfl⟩

/-- A fetch that raises leaves one of its two halts. -/
theorem stepShape_of_fetch_eq_error {s : State} {r : Raise} (hf : s.fetch = .error r) :
    StepShape s (s.haltWith r none) := by
  rcases fetch_eq s with ⟨hpc, h⟩ | ⟨hpc, ht, h⟩ | ⟨_, _, h⟩ <;> rw [h] at hf <;> cases hf
  · exact .misalignedPc hpc
  · exact .outsideText hpc ht

theorem exec_shape_of_eq {i : Instr} {s t : State} (h : exec i s = .next t) : ExecShape i s t := by
  obtain ⟨u, hu, hshape⟩ := exec_shape i s
  cases hu.symm.trans h
  exact hshape

/-- A step with a next state is a RUNNING machine's, of one of the shapes. -/
theorem step_shape {s t : State} (h : step s = .next t) : s.status = .running ∧ StepShape s t := by
  rcases step_cases h with ⟨_, hfault⟩ | ⟨hrun, hcases⟩
  · cases hfault
  refine ⟨hrun, ?_⟩
  rcases hcases with ⟨r, hf, ho⟩ | ⟨w, hf, hd, ho⟩ | ⟨i, hf, hd, ho⟩
  · cases ho
    exact stepShape_of_fetch_eq_error hf
  · cases ho
    cases eq_of_decode_unsupported hd
    exact .unsupported (fetches_of_fetch_eq_ok hrun hf) hd
  · exact .executed i t (fetches_of_fetch_eq_ok hrun hf) hd ho.symm (exec_shape_of_eq ho.symm)

/-! ### The invariant -/

/-- A halt with a cause and the fields that cause records keeps the invariant. -/
theorem State.Inv.haltWith {s : State} (hs : s.Inv) (r : Raise) (w : Option Word) (hcause : r.cause ≠ .none)
    (hrecord : (s.haltWith r w).halt.consistent) : (s.haltWith r w).Inv where
  zeroCell := hs.zeroCell
  memory := hs.memory
  text := hs.text
  cause := ⟨fun _ => hcause, fun _ => rfl⟩
  record := hrecord
  haltedPc _ := rfl

/-- A RUNNING machine that goes on keeps the invariant: only register 0's cell and memory are left to show. -/
theorem State.Inv.of_running {s t : State} (hs : s.Inv) (hrun : s.status = .running) (hzero : t.regs[0] = s.regs[0])
    (hmem : Memory.wf t.mem = true) (hstatus : t.status = s.status) (hhalt : t.halt = s.halt)
    (htext : t.textWords = s.textWords) : t.Inv where
  zeroCell := hzero.trans hs.zeroCell
  memory := hmem
  text := htext ▸ hs.text
  cause := by rw [hstatus, hhalt]; exact hs.cause
  record := hhalt ▸ hs.record
  haltedPc h := by simp [hstatus, hrun] at h

/-- An executed instruction keeps the invariant (10_state.md R21, R31, R32; 20_memory.md R43). -/
theorem ExecShape.keeps_inv {i : Instr} {s t : State} (h : ExecShape i s t) (hrun : s.status = .running)
    (hs : s.Inv) : t.Inv := by
  cases h with
  | register d v => exact hs.of_running hrun (by simp) (by simpa using hs.memory) (by simp) (by simp) (by simp)
  | transfer d v target _ => exact hs.of_running hrun (by simp) (by simpa using hs.memory) (by simp) (by simp) (by simp)
  | hiLo vh vl _ => exact hs.of_running hrun rfl hs.memory rfl rfl rfl
  | store rt rs imm _ _ => exact hs.of_running hrun rfl (storeWord_wf _ _ _ _ hs.memory) rfl rfl rfl
  | misaligned rt rs imm _ ha => exact hs.haltWith _ _ (by simp [raiseAlignment]) ⟨_, rfl, ha, by simp⟩
  | divisionByZero rs rt _ _ => exact hs.haltWith _ _ (by simp) ⟨rfl, rfl⟩

/-- Settles O41, by the shapes of a step: a completed instruction leaves status and record, and every halt writes the
record its cause asks for. -/
theorem stepKeepsInvariant : Obligations.StepKeepsInvariant := by
  intro s t hs hstep
  obtain ⟨hrun, hshape⟩ := step_shape hstep
  cases hshape with
  | misalignedPc hpc => exact hs.haltWith _ _ (by simp [raiseAlignment]) ⟨s.pc, rfl, hpc, fun _ => rfl⟩
  | outsideText _ _ => exact hs.haltWith _ _ (by simp) ⟨rfl, rfl⟩
  | unsupported _ _ => exact hs.haltWith _ _ (by simp) ⟨rfl, rfl⟩
  | executed i t _ _ _ hexec => exact hexec.keeps_inv hrun hs

/-- Settles O40: the reset state has every cell 0, no memory entry, no text and a clear record. -/
theorem resetSatisfiesInvariant : Obligations.ResetSatisfiesInvariant where
  zeroCell := rfl
  memory := reset_mem_wf
  text := by decide
  cause := by decide
  record := ⟨rfl, rfl⟩
  haltedPc h := by cases h

/-! ### The text extent -/

theorem ExecShape.textWords {i : Instr} {s t : State} (h : ExecShape i s t) : t.textWords = s.textWords := by
  cases h with
  | register d v => simp
  | transfer d v target _ => simp
  | hiLo | store | misaligned | divisionByZero => rfl

/-- Settles O42: no shape of a step writes the text extent (10_state.md R32). -/
theorem stepKeepsTextExtent : Obligations.StepKeepsTextExtent := by
  intro s t hstep
  obtain ⟨_, hshape⟩ := step_shape hstep
  cases hshape with
  | misalignedPc | outsideText | unsupported => rfl
  | executed i t _ _ _ hexec => exact hexec.textWords

/-! ### Halts -/

/-- A step of a machine ends HALTED only by taking a halt. -/
theorem StepShape.eq_haltWith {s t : State} (h : StepShape s t) (hrun : s.status = .running)
    (hhalted : t.status = .halted) : ∃ r w, t = s.haltWith r w := by
  cases h with
  | misalignedPc | outsideText | unsupported => exact ⟨_, _, rfl⟩
  | executed i t _ _ _ hexec =>
    rcases hexec.status_eq_or_haltInstr with hstatus | ⟨r, ht⟩
    · simp [hstatus, hrun] at hhalted
    · exact ⟨r, _, ht⟩

/-- Settles O11: a step that ends HALTED took a halt, which writes the status and the record alone. -/
theorem haltsArePrecise : Obligations.HaltsArePrecise := by
  intro s t hstep hhalted
  obtain ⟨hrun, hshape⟩ := step_shape hstep
  obtain ⟨r, w, rfl⟩ := hshape.eq_haltWith hrun hhalted
  exact ⟨rfl, rfl⟩

/-- The effective address as a wrapped sum of unsigned values (43_loadstore.md R122). -/
theorem effectiveAddress_eq_word (base : Word) (imm : BitVec 16) :
    effectiveAddress base imm = word (base.toNat + (imm.signExtend 32).toNat) :=
  BitVec.add_def base (simm imm)

/-- Settles O12, by the shapes of a step; of an executed instruction only the two halting shapes end HALTED. -/
theorem everyHaltIsInTheTable : Obligations.EveryHaltIsInTheTable := by
  intro s t hstep hhalted
  obtain ⟨hrun, hshape⟩ := step_shape hstep
  cases hshape with
  | misalignedPc hpc => exact .inl ⟨hpc, rfl⟩
  | outsideText hpc ht => exact .inr (.inl ⟨hpc, fun h => by simp [(inText_iff s).2 h] at ht, rfl⟩)
  | unsupported hf hd => exact .inr (.inr ⟨_, hf, .inl ⟨hd, rfl⟩⟩)
  | executed i t hf hd _ hexec =>
    refine .inr (.inr ⟨_, hf, .inr ?_⟩)
    cases hexec with
    | register | transfer | hiLo | store => simp [hrun] at hhalted
    | misaligned rt rs imm hi ha =>
      exact .inl ⟨rt, rs, imm, _, by simpa [hd] using hi, effectiveAddress_eq_word _ _, ha, rfl⟩
    | divisionByZero rs rt hi hz => exact .inr ⟨rs, rt, hi ▸ hd, hz, rfl⟩

theorem fetch_of_misaligned {s : State} (h : s.pc.toNat % 4 ≠ 0) : s.fetch = .error (raiseAlignment s.pc) :=
  if_neg (mt (aligned_iff s.pc).1 h)

theorem fetch_of_outsideText {s : State} (hpc : s.pc.toNat % 4 = 0)
    (h : s.pc.toNat < Config.textBase ∨ Config.textBase + 4 * s.textWords ≤ s.pc.toNat) :
    s.fetch = .error { cause := .ended, faultAddr := none } :=
  (if_pos ((aligned_iff s.pc).2 hpc)).trans (if_neg (by rw [inText_iff]; omega))

theorem step_of_fetch_eq_error {s : State} {r : Raise} (hrun : s.status = .running) (hf : s.fetch = .error r) :
    step s = .next (s.haltWith r none) := by
  simp only [step, hrun, hf]

/-- Settles O10: a fetch at a misaligned pc raises ALIGNMENT_ERROR, one at an aligned pc outside the text END (R81). -/
theorem fetchHaltsInOrder : Obligations.FetchHaltsInOrder := fun s hrun =>
  ⟨fun hpc => ⟨_, step_of_fetch_eq_error hrun (fetch_of_misaligned hpc), haltWith_haltedFor s _ _, rfl, rfl⟩,
    fun hpc hout =>
      ⟨_, step_of_fetch_eq_error hrun (fetch_of_outsideText hpc hout), haltWith_haltedFor s _ _, rfl, rfl⟩⟩

end Sys2Proof.Machine
end

section
/-! SUPPORT. The proofs of what an instruction leaves unchanged: registers but its destination, HI and LO, memory, pc,
and the hidden parts of the state (10_state.md R24, R28, 44_control.md R130, R132). -/

namespace Sys2Proof.Machine

/-! ### Registers, HI and LO, memory -/

theorem reg_setReg_of_ne_dest {s : State} {d r : RegIdx} {v : Word} (h : r ≠ d) : (s.setReg d v).reg r = s.reg r := by
  rw [reg_setReg, if_neg h]
  split
  · next hr => rw [hr, reg_zero]
  · rfl

/-- A write-back changes no register but the one it names. -/
theorem dest_of_writeBack {d r : RegIdx} {v : Word} {s t : State} (h : writeBack d v s = .next t)
    (hr : t.reg r ≠ s.reg r) : some d = some r := by
  cases h
  by_contra hne
  exact hr (reg_setReg_of_ne_dest fun e => hne (congrArg some e.symm))

/-- Settles O14: ten instructions end in a write-back to their destination, `lw` does unless it halts, `jal` links
through register 31, and the rest write no register. -/
theorem onlyDestinationChanges : Obligations.OnlyDestinationChanges := by
  intro i s t r h hr
  cases i with
  | sll | mflo | add | sub | and | or | xor | nor | slt | addi => exact dest_of_writeBack h hr
  | jr | mult | j | beq | bne => cases h; exact absurd rfl hr
  | jal target =>
    cases h
    by_contra hne
    exact hr (reg_setReg_of_ne_dest fun e => hne (congrArg some e.symm))
  | div rs rt =>
    simp only [exec, execDiv] at h
    split at h <;> cases h <;> exact absurd rfl hr
  | lw rt rs imm =>
    simp only [exec, execLw] at h
    split at h
    · exact dest_of_writeBack h hr
    · cases h; exact absurd rfl hr
  | sw rt rs imm =>
    simp only [exec, execSw] at h
    split at h <;> cases h <;> exact absurd rfl hr

/-- Settles O25: of the shapes of an executed instruction only that of `mult` and `div` writes HI or LO. -/
theorem onlyMultDivWriteHiLo : Obligations.OnlyMultDivWriteHiLo := by
  intro i s t h hchanged
  cases exec_shape_of_eq h with
  | hiLo vh vl hi => exact hi
  | register | transfer | store | misaligned | divisionByZero => simp [State.haltInstr] at hchanged

/-- A byte that a stored word changes lies in the four of its address. -/
theorem mem_of_readByte_storeWord_ne {o : ByteOrder} {m : Memory} {a v : Word} {b : Nat} (ha : a.toNat % 4 = 0)
    (h : Memory.readByte (Memory.storeWord o m a v) b ≠ Memory.readByte m b) : a.toNat ≤ b ∧ b < a.toNat + 4 := by
  rw [readByte_storeWord, wordBase_of_aligned a ((aligned_iff a).2 ha)] at h
  by_contra hout
  exact h (if_neg hout)

/-- Settles O32: of the shapes of an executed instruction only the store writes memory. -/
theorem onlySwChangesMemory : Obligations.OnlySwChangesMemory := by
  intro i s t a h hchanged
  cases exec_shape_of_eq h with
  | store rt rs imm hi ha => exact ⟨rt, rs, imm, hi, mem_of_readByte_storeWord_ne ha hchanged⟩
  | register | transfer | hiLo | misaligned | divisionByZero => simp [State.haltInstr, State.byte] at hchanged

/-! ### The pc -/

/-- Settles O39: a shape that is no transfer moves pc on by 4 with the status kept, or is a halt, which keeps pc. -/
theorem onlyControlTransfersRedirect : Obligations.OnlyControlTransfersRedirect := by
  intro i s t hi h
  cases exec_shape_of_eq h with
  | register d v => exact .inl ⟨rfl, by simp⟩
  | hiLo | store => exact .inl ⟨rfl, rfl⟩
  | misaligned | divisionByZero => exact .inr ⟨rfl, rfl⟩
  | transfer d v target hi' =>
    rcases hi' with ⟨_, rfl, _⟩ | ⟨_, _, _, rfl | rfl, _⟩ | ⟨_, rfl | rfl, _⟩ <;> cases hi

theorem pcPlus4_toNat_mod (pc : Word) : (pcPlus4 pc).toNat % 4 = pc.toNat % 4 := by
  rw [pcPlus4, BitVec.toNat_add, show (4 : Word).toNat = 4 from rfl]
  omega

theorem branchTarget_toNat_mod (pc : Word) (imm : BitVec 16) :
    (branchTarget pc imm).toNat % 4 = pc.toNat % 4 := by
  have hpc := pcPlus4_toNat_mod pc
  have hoff := branchOffset_toNat_mod imm
  rw [branchTarget, BitVec.toNat_add]
  omega

/-- The jump target is 4 times the target field in the 256 MiB region of pc (30_encoding.md R68). -/
theorem jumpTarget_toNat (pc : Word) (target : BitVec 26) :
    (jumpTarget pc target).toNat = pc.toNat / 2 ^ 28 * 2 ^ 28 + 4 * target.toNat := by
  have htarget := target.isLt
  have hpc := pc.isLt
  rw [jumpTarget, BitVec.toNat_append, BitVec.toNat_append, ← Nat.shiftLeft_add_eq_or_of_lt (by simp),
    ← Nat.shiftLeft_add_eq_or_of_lt htarget, BitVec.extractLsb'_toNat]
  simp only [Nat.shiftLeft_eq, Nat.shiftRight_eq_div_pow, BitVec.toNat_ofNat]
  omega

/-- An executed instruction takes an aligned pc to an aligned one, unless it is a `jr`. -/
theorem ExecShape.pc_aligned_or_jr {i : Instr} {s t : State} (h : ExecShape i s t) (hpc : s.pc.toNat % 4 = 0) :
    t.pc.toNat % 4 = 0 ∨ ∃ rs, i = .jr rs ∧ t.pc = s.reg rs := by
  have hnext : (pcPlus4 s.pc).toNat % 4 = 0 := (pcPlus4_toNat_mod s.pc).trans hpc
  cases h with
  | register | hiLo | store => exact .inl hnext
  | misaligned | divisionByZero => exact .inl hpc
  | transfer d v target hi =>
    rcases hi with ⟨rs, hi, rfl⟩ | ⟨_, _, imm, _, rfl | rfl⟩ | ⟨target26, _, rfl⟩
    · exact .inr ⟨rs, hi, rfl⟩
    · exact .inl ((branchTarget_toNat_mod s.pc imm).trans hpc)
    · exact .inl hnext
    · exact .inl (by rw [setPc_pc, jumpTarget_toNat]; omega)

/-- Settles O38: a halt keeps pc, and of the executed instructions only `jr` can misalign it. -/
theorem onlyJrMisalignsPc : Obligations.OnlyJrMisalignsPc := by
  intro s t hstep hpc hmis
  obtain ⟨_, hshape⟩ := step_shape hstep
  cases hshape with
  | misalignedPc | outsideText | unsupported => exact absurd hpc hmis
  | executed i t _ hd _ hexec =>
    obtain ⟨rs, rfl, htarget⟩ := (hexec.pc_aligned_or_jr hpc).resolve_left hmis
    exact ⟨rs, hd, htarget⟩

/-! ### The hidden state -/

/-- Two states agree on all but HI, the halt record and the text extent. -/
structure SameVisible (t t' : State) : Prop where
  regs : t'.regs = t.regs
  lo : t'.lo = t.lo
  pc : t'.pc = t.pc
  mem : t'.mem = t.mem
  status : t'.status = t.status

section
variable {t t' : State} (h : SameVisible t t')
include h

theorem SameVisible.reg (r : RegIdx) : t'.reg r = t.reg r := by
  simp only [State.reg, h.regs]

theorem SameVisible.setReg (d : RegIdx) (v : Word) : SameVisible (t.setReg d v) (t'.setReg d v) := by
  unfold State.setReg
  split
  · exact h
  · exact ⟨by rw [h.regs], h.lo, h.pc, h.mem, h.status⟩

theorem SameVisible.setPc (target : Word) : SameVisible (t.setPc target) (t'.setPc target) :=
  ⟨h.regs, h.lo, rfl, h.mem, h.status⟩

theorem SameVisible.advance : SameVisible t.advance t'.advance := by
  rw [State.advance, State.advance, h.pc]
  exact h.setPc _

theorem SameVisible.setHiLo (vh vl : Word) : SameVisible (t.setHiLo vh vl) (t'.setHiLo vh vl) :=
  ⟨h.regs, rfl, h.pc, h.mem, h.status⟩

theorem SameVisible.setMem (m : Memory) : SameVisible (t.setMem m) (t'.setMem m) :=
  ⟨h.regs, h.lo, h.pc, rfl, h.status⟩

theorem SameVisible.haltInstr (r : Raise) : SameVisible (t.haltInstr r) (t'.haltInstr r) :=
  ⟨h.regs, h.lo, h.pc, h.mem, rfl⟩

theorem SameVisible.writeBack (d : RegIdx) (v : Word) :
    ∃ u u', Machine.writeBack d v t = .next u ∧ Machine.writeBack d v t' = .next u' ∧ SameVisible u u' :=
  ⟨_, _, rfl, rfl, (h.setReg d v).advance⟩

theorem SameVisible.redirect (target : Word) :
    ∃ u u', Machine.redirect target t = .next u ∧ Machine.redirect target t' = .next u' ∧ SameVisible u u' :=
  ⟨_, _, rfl, rfl, h.setPc target⟩

/-- No instruction reads what two such states may differ in: every operand, address and target is the same in both. -/
theorem SameVisible.exec (i : Instr) :
    ∃ u u', Machine.exec i t = .next u ∧ Machine.exec i t' = .next u' ∧ SameVisible u u' := by
  cases i with
  | sll | mflo | add | sub | and | or | xor | nor | slt | addi =>
    simp only [Machine.exec, execSll, execMflo, execAdd, execSub, execAnd, execOr, execXor, execNor, execSlt, execAddi,
      aluRegReg, h.reg, h.lo]
    exact h.writeBack _ _
  | jr | j | beq | bne =>
    simp only [Machine.exec, execJr, execJ, execBeq, execBne, h.reg, h.pc]
    exact h.redirect _
  | jal target =>
    simp only [Machine.exec, execJal, h.pc]
    exact (h.setReg _ _).redirect _
  | mult rs rt =>
    simp only [Machine.exec, execMult, h.reg]
    exact ⟨_, _, rfl, rfl, (h.setHiLo _ _).advance⟩
  | div rs rt =>
    simp only [Machine.exec, execDiv, h.reg]
    split
    · exact ⟨_, _, rfl, rfl, h.haltInstr _⟩
    · exact ⟨_, _, rfl, rfl, (h.setHiLo _ _).advance⟩
  | lw rt rs imm =>
    simp only [Machine.exec, execLw, h.reg, h.mem]
    split
    · exact h.writeBack _ _
    · exact ⟨_, _, rfl, rfl, h.haltInstr _⟩
  | sw rt rs imm =>
    simp only [Machine.exec, execSw, h.reg, h.mem]
    split
    · exact ⟨_, _, rfl, rfl, (h.setMem _).advance⟩
    · exact ⟨_, _, rfl, rfl, h.haltInstr _⟩

end

/-- Settles O43: replacing HI, the record and the text extent leaves the visible state, and execution keeps the two
states' visible parts the same. -/
theorem hiddenStateDoesNotLeak : Obligations.HiddenStateDoesNotLeak := by
  intro i s h record n
  have hsame : SameVisible s { s with hi := h, halt := record, textWords := n } := ⟨rfl, rfl, rfl, rfl, rfl⟩
  obtain ⟨t, t', ht, ht', hregs, hlo, hpc, hmem, hstatus⟩ := hsame.exec i
  exact ⟨t, t', ht, ht', hregs, hlo, hpc, hmem, hstatus⟩

end Sys2Proof.Machine
end

section
/-! SUPPORT. The proofs of the register instructions: the ALU family, `mflo`, `mult` and `div` (41_alu.md R90 to R98,
42_muldiv.md R110 to R113). -/

namespace Sys2Proof.Machine

/-! ### The ALU -/

theorem alu_sub_eq_ofInt (a b : Word) : alu .sub a b = BitVec.ofInt 32 (a.toNat - b.toNat) := by
  rw [Int.sub_eq_add_neg, BitVec.ofInt_add, BitVec.ofInt_neg, BitVec.ofInt_natCast, BitVec.ofInt_natCast]
  simp [alu, BitVec.sub_eq_add_neg]

theorem alu_slt_eq (a b : Word) : alu .slt a b = if a.toInt < b.toInt then 0x00000001 else 0x00000000 := by
  simp [alu, signedLess]

/-- A left shift multiplies by a power of two and wraps (R97). -/
theorem alu_sll_eq_word (a : Word) (shamt : BitVec 5) :
    alu .sll a (shamtOperand shamt) = word (a.toNat * 2 ^ shamt.toNat) := by
  have hshamt : (shamtOperand shamt).extractLsb' 0 5 = shamt := by
    simp [shamtOperand, ← BitVec.setWidth_eq_extractLsb']
  apply BitVec.eq_of_toNat_eq
  rw [alu, hshamt, BitVec.toNat_shiftLeft, Nat.shiftLeft_eq, word, BitVec.toNat_ofNat]

/-- Settles O15: both are write-backs of the ALU's result. -/
theorem addSubResults : Obligations.AddSubResults := by
  intro rd rs rt s
  rw [← alu_add_eq_word, ← alu_sub_eq_ofInt]
  exact ⟨writeBack_completed rd _ s, writeBack_completed rd _ s⟩

/-- Settles O16: the four are write-backs, and the ALU's bitwise results are the stated ones by definition (R90). -/
theorem logicalResults : Obligations.LogicalResults := fun rd _ _ s =>
  ⟨writeBack_completed rd _ s, writeBack_completed rd _ s, writeBack_completed rd _ s, writeBack_completed rd _ s⟩

/-- Settles O17: a write-back of the signed comparison. -/
theorem sltComparesSigned : Obligations.SltComparesSigned := by
  intro rd rs rt s
  rw [← alu_slt_eq]
  exact writeBack_completed rd _ s

/-- Settles O18: a write-back of the shifted source. -/
theorem sllMultipliesByPowerOfTwo : Obligations.SllMultipliesByPowerOfTwo := by
  intro rd rt shamt s
  rw [← alu_sll_eq_word]
  exact writeBack_completed rd _ s

/-! ### HI and LO -/

/-- Settles O24: the function code 0x12 has the decoder's `mflo` row whatever the other fields, and its execution is a
write-back of LO. -/
theorem mfloInstruction : Obligations.MfloInstruction := by
  refine ⟨fun w hop hfunct => ?_, rfl, fun rd s => writeBack_completed rd s.lo s⟩
  exact decode_of_selects (m := .mflo) (Laws.special_mask w 0x12 hop hfunct)

/-- Writing HI and LO and going on is a completion (R84, R85). -/
theorem setHiLo_advance_completed (s : State) (vh vl : Word) :
    Completed s (s.setHiLo vh vl).advance s.reg vh vl (s.pc + 4) s.byte where
  regs _ := rfl
  hi := rfl
  lo := rfl
  pc := rfl
  bytes _ := rfl
  status := rfl
  halt := rfl
  textWords := rfl

/-- 64 bits are enough for the product of two signed words (R110). -/
theorem product_toInt (a b : Word) : (product a b).toInt = a.toInt * b.toInt := by
  have hhi := BitVec.toInt_mul_toInt_le (x := a) (y := b)
  have hlo := BitVec.le_toInt_mul_toInt (x := a) (y := b)
  rw [product, BitVec.toInt_mul, BitVec.toInt_signExtend_of_le (by decide), BitVec.toInt_signExtend_of_le (by decide)]
  exact Int.bmod_eq_of_le (by omega) (by omega)

theorem append_halves (p : BitVec 64) : p.extractLsb' 32 32 ++ p.extractLsb' 0 32 = p :=
  (BitVec.extractLsb'_append_extractLsb'_eq_extractLsb' rfl).trans BitVec.extractLsb'_eq_self

/-- Settles O20: HI and LO are the halves of the product. -/
theorem multGivesExactProduct : Obligations.MultGivesExactProduct := by
  intro rs rt s
  refine ⟨_, rfl, ?_, setHiLo_advance_completed s _ _⟩
  rw [← product_toInt, advance_hi, advance_lo, setHiLo_hi, setHiLo_lo]
  exact congrArg BitVec.toInt (append_halves _)

/-! ### Division -/

theorem exec_div_of_divisor_ne_zero {rs rt : RegIdx} {s : State} (h : s.reg rt ≠ 0) :
    exec (.div rs rt) s =
      .next (s.setHiLo (wordOfInt (remainder .trunc (s.reg rs).toInt (s.reg rt).toInt))
        (wordOfInt (quotient .trunc (s.reg rs).toInt (s.reg rt).toInt))).advance :=
  if_neg h

/-- The truncating quotient is the quotient of the magnitudes with the sign of the product (R111). -/
theorem quotient_trunc_eq (n d : Int) :
    quotient .trunc n d = (n * d).sign * ((n.natAbs / d.natAbs : Nat) : Int) := by
  rw [quotient, ← Int.sign_mul_natAbs (n.tdiv d), Int.sign_tdiv, Int.natAbs_tdiv, Int.sign_mul]
  split
  · next h => simp [Nat.div_eq_of_lt h]
  · rfl

theorem remainder_trunc_eq (n d : Int) : remainder .trunc n d = n.tmod d := by
  rw [Int.tmod_def, mul_comm]
  rfl

theorem remainder_floor_eq (n d : Int) : remainder .floor n d = n.fmod d := by
  rw [Int.fmod_def, mul_comm]
  rfl

theorem natAbs_remainder_trunc_lt (n : Int) {d : Int} (hd : d ≠ 0) :
    (remainder .trunc n d).natAbs < d.natAbs := by
  rw [remainder_trunc_eq, Int.natAbs_tmod]
  exact Nat.mod_lt _ (Int.natAbs_pos.2 hd)

theorem remainder_trunc_eq_zero_or_sign (n d : Int) :
    remainder .trunc n d = 0 ∨ (remainder .trunc n d).sign = n.sign := by
  rw [remainder_trunc_eq]
  by_cases h : d ∣ n
  · exact .inl (Int.tmod_eq_zero_of_dvd h)
  · exact .inr (by rw [Int.sign_tmod, if_neg h])

/-- The quotient of signed words is a signed word, but for INT_MIN by -1 (R111). -/
theorem quotient_trunc_range {n d : Int} (hlo : -2 ^ 31 ≤ n) (hhi : n < 2 ^ 31) (h : ¬(n = -2147483648 ∧ d = -1)) :
    -2 ^ 31 ≤ quotient .trunc n d ∧ quotient .trunc n d < 2 ^ 31 := by
  have hle := Int.natAbs_tdiv_le_natAbs n d
  rw [quotient]
  refine ⟨by omega, ?_⟩
  by_cases hone : d = 1
  · rw [hone, Int.tdiv_one]
    exact hhi
  by_cases hneg : d = -1
  · rw [hneg, Int.tdiv_neg, Int.tdiv_one]
    omega
  have hhalf : (n.tdiv d).natAbs ≤ n.natAbs / 2 := by
    by_cases hd : d = 0
    · simp [hd]
    · rw [Int.natAbs_tdiv]
      exact Nat.div_le_div_left (by omega) (by decide)
  omega

/-- Settles O21: HI and LO are the truncating remainder and quotient, which fit a signed word but for INT_MIN by -1. -/
theorem divTruncatesTowardZero : Obligations.DivTruncatesTowardZero := by
  intro rs rt s n d q r hne hn hd hq hr
  rw [← quotient_trunc_eq] at hq
  have hrem : r = remainder .trunc n d := by rw [hr, hq, remainder]
  have hd0 : d ≠ 0 := fun h => hne (BitVec.eq_of_toInt_eq (hd.symm.trans h))
  have hlt := natAbs_remainder_trunc_lt n hd0
  have hnlo : -2 ^ 31 ≤ n := hn ▸ BitVec.le_toInt _
  have hnhi : n < 2 ^ 31 := hn ▸ BitVec.toInt_lt
  have hdlo : -2 ^ 31 ≤ d := hd ▸ BitVec.le_toInt _
  have hdhi : d < 2 ^ 31 := hd ▸ BitVec.toInt_lt
  have hexec := exec_div_of_divisor_ne_zero (rs := rs) hne
  rw [← hn, ← hd, ← hq, ← hrem] at hexec
  rw [← hrem] at hlt
  refine ⟨⟨_, hexec, setHiLo_advance_completed s _ _, ?_, ?_, ?_⟩, hlt,
    hrem ▸ remainder_trunc_eq_zero_or_sign n d⟩
  · exact BitVec.toInt_ofInt_eq_self (by decide) (by omega) (by omega)
  · by_cases hmin : n = -2147483648 ∧ d = -1
    · exact .inl hmin
    · obtain ⟨hqlo, hqhi⟩ := quotient_trunc_range hnlo hnhi hmin
      rw [← hq] at hqlo hqhi
      exact .inr (BitVec.toInt_ofInt_eq_self (by decide) hqlo hqhi)
  · rintro rfl rfl
    rw [hq]
    rfl

/-- Settles O22: the FLOOR remainder is `Int.fmod`, and the quotients of operands of one sign are those of their
magnitudes. -/
theorem floorRoundingLaw : Obligations.FloorRoundingLaw := by
  intro n d hd
  refine ⟨by rw [remainder]; ring, fun hpos => ?_, fun hneg => ?_, fun hsign => ?_⟩
  · rw [remainder_floor_eq]
    exact ⟨Int.fmod_nonneg_of_pos n hpos, Int.fmod_lt_of_pos n hpos⟩
  · have hlo := Int.fmod_nonneg_of_pos (-n) (Int.neg_pos_of_neg hneg)
    have hhi := Int.fmod_lt_of_pos (-n) (Int.neg_pos_of_neg hneg)
    rw [Int.neg_fmod_neg] at hlo hhi
    rw [remainder_floor_eq]
    omega
  · rcases mul_nonneg_iff.1 hsign with ⟨hn, hd⟩ | ⟨hn, hd⟩
    · exact Int.fdiv_eq_tdiv_of_nonneg hn hd
    · have h := Int.fdiv_eq_tdiv_of_nonneg (Int.neg_nonneg_of_nonpos hn) (Int.neg_nonneg_of_nonpos hd)
      rwa [Int.neg_fdiv_neg, Int.neg_tdiv_neg] at h

end Sys2Proof.Machine
end

section
/-! SUPPORT. The proofs of the control transfers (44_control.md R131 to R137). -/

namespace Sys2Proof.Machine

/-- A redirect completes with the target as pc and everything else unchanged (40_cycle.md R87). -/
theorem setPc_completed (s : State) (target : Word) :
    Completed s (s.setPc target) s.reg s.hi s.lo target s.byte where
  regs _ := rfl
  hi := rfl
  lo := rfl
  pc := rfl
  bytes _ := rfl
  status := rfl
  halt := rfl
  textWords := rfl

/-- A redirect after a link. -/
theorem setReg_setPc_completed (s : State) (d : RegIdx) (v target : Word) :
    Completed s ((s.setReg d v).setPc target) (s.regsWith d v) s.hi s.lo target s.byte where
  regs r := reg_setReg s d r v
  hi := by simp
  lo := by simp
  pc := rfl
  bytes a := by simp [State.byte]
  status := by simp
  halt := by simp
  textWords := by simp

/-- The branch target is pc + 4 plus 4 times the signed immediate, wrapped (R131, D12). -/
theorem branchTarget_eq_ofInt (pc : Word) (imm : BitVec 16) :
    branchTarget pc imm = BitVec.ofInt 32 (pc.toNat + 4 + 4 * imm.toInt) := by
  rw [← branchOffset_toInt, BitVec.ofInt_add, BitVec.ofInt_toInt, BitVec.ofInt_add, BitVec.ofInt_natCast,
    BitVec.ofNat_toNat, BitVec.setWidth_eq]
  rfl

/-- Settles O34: `jr` is a redirect to the register. -/
theorem jrTakesRegister : Obligations.JrTakesRegister := fun rs s => ⟨_, rfl, setPc_completed s (s.reg rs)⟩

theorem exec_beq (rs rt : RegIdx) (imm : BitVec 16) (s : State) :
    exec (.beq rs rt imm) s =
      .next (s.setPc (if s.reg rs = s.reg rt then branchTarget s.pc imm else s.pc + 4)) := by
  simp [exec, execBeq, redirect, aluEq, pcPlus4]

theorem exec_bne (rs rt : RegIdx) (imm : BitVec 16) (s : State) :
    exec (.bne rs rt imm) s =
      .next (s.setPc (if s.reg rs ≠ s.reg rt then branchTarget s.pc imm else s.pc + 4)) := by
  simp [exec, execBne, redirect, aluEq, pcPlus4]

/-- Settles O35: the opcode 0x04 has the decoder's `beq` row, and its execution is a redirect. -/
theorem beqInstruction : Obligations.BeqInstruction := by
  refine ⟨fun w hop => decode_of_selects (m := .beq) (Laws.primary_mask w 0x04 hop), fun rs rt imm s => ?_⟩
  rw [← branchTarget_eq_ofInt]
  exact ⟨_, exec_beq rs rt imm s, setPc_completed s _⟩

/-- Settles O36: `bne` is a redirect. -/
theorem bneBranchesOnDifference : Obligations.BneBranchesOnDifference := by
  intro rs rt imm s
  rw [← branchTarget_eq_ofInt]
  exact ⟨_, exec_bne rs rt imm s, setPc_completed s _⟩

/-- Settles O37: both jumps redirect to the jump target, `jal` after the link. -/
theorem jumpsStayInRegion : Obligations.JumpsStayInRegion := fun target s =>
  ⟨⟨_, rfl, jumpTarget_toNat s.pc target, setPc_completed s _⟩,
    ⟨_, rfl, jumpTarget_toNat s.pc target, setReg_setPc_completed s regRa (pcPlus4 s.pc) _⟩⟩

end Sys2Proof.Machine
end

section
/-! SUPPORT. The proofs about memory, `lw` and `sw`: load after store through the machine, byte order, and canonical
memories as functions of their words (20_memory.md R40 to R46, 43_loadstore.md R120 to R123). -/

namespace Sys2Proof.Machine

/-! ### lw and sw -/

section
variable {rt rs : RegIdx} {imm : BitVec 16} {s : State}

theorem exec_lw_of_aligned (h : (effectiveAddress (s.reg rs) imm).toNat % 4 = 0) :
    exec (.lw rt rs imm) s = writeBack rt (s.wordAt (effectiveAddress (s.reg rs) imm)) s := by
  simp only [exec, execLw, memRead_of_aligned _ _ h]
  rfl

theorem exec_lw_of_misaligned (h : (effectiveAddress (s.reg rs) imm).toNat % 4 ≠ 0) :
    exec (.lw rt rs imm) s = .next (s.haltInstr (raiseAlignment (effectiveAddress (s.reg rs) imm))) := by
  simp only [exec, execLw, memRead_of_misaligned _ _ h]

theorem exec_sw_of_aligned (h : (effectiveAddress (s.reg rs) imm).toNat % 4 = 0) :
    exec (.sw rt rs imm) s = .next (s.setMem (Memory.storeWord Config.byteOrder s.mem
      (effectiveAddress (s.reg rs) imm) (s.reg rt))).advance := by
  simp only [exec, execSw, memWrite_of_aligned _ _ _ h]

theorem exec_sw_of_misaligned (h : (effectiveAddress (s.reg rs) imm).toNat % 4 ≠ 0) :
    exec (.sw rt rs imm) s = .next (s.haltInstr (raiseAlignment (effectiveAddress (s.reg rs) imm))) := by
  simp only [exec, execSw, memWrite_of_misaligned _ _ _ h]

end

/-- A byte outside the four of an aligned address keeps its value over a store there. -/
theorem readByte_storeWord_of_not_mem {o : ByteOrder} {m : Memory} {a v : Word} {b : Nat} (ha : a.toNat % 4 = 0)
    (hb : ¬(a.toNat ≤ b ∧ b < a.toNat + 4)) :
    Memory.readByte (Memory.storeWord o m a v) b = Memory.readByte m b :=
  not_not.1 (mt (mem_of_readByte_storeWord_ne ha) hb)

/-- Replacing memory and going on completes, with the new memory's bytes. -/
theorem setMem_advance_completed (s : State) (m : Memory) :
    Completed s (s.setMem m).advance s.reg s.hi s.lo (s.pc + 4) (Memory.readByte m) where
  regs _ := rfl
  hi := rfl
  lo := rfl
  pc := rfl
  bytes _ := rfl
  status := rfl
  halt := rfl
  textWords := rfl

/-- Settles O27: aligned, `lw` is a write-back of the word; misaligned, a halt. -/
theorem lwLoadsAlignedWord : Obligations.LwLoadsAlignedWord := by
  intro rt rs imm s ea hea
  rw [← effectiveAddress_eq_word] at hea
  subst hea
  refine ⟨fun h => ?_, fun h => ⟨_, exec_lw_of_misaligned h, haltWith_haltedFor s _ _, rfl, rfl⟩⟩
  rw [exec_lw_of_aligned h]
  exact writeBack_completed rt _ s

/-- A word read at an aligned address is a function of its four bytes. -/
theorem wordAt_congr {s t : State} {a : Word} (ha : a.toNat % 4 = 0)
    (h : ∀ k, k < 4 → s.byte (a.toNat + k) = t.byte (a.toNat + k)) : s.wordAt a = t.wordAt a := by
  unfold State.wordAt Memory.loadWord
  rw [wordBase_of_aligned a ((aligned_iff a).2 ha)]
  exact congr (congr (congr (congrArg _ (h 0 (by decide))) (h 1 (by decide))) (h 2 (by decide))) (h 3 (by decide))

/-- The word at the effective address after an aligned `sw` is the one stored. -/
theorem wordAt_of_exec_sw {rt rs : RegIdx} {imm : BitVec 16} {s t : State}
    (ha : (effectiveAddress (s.reg rs) imm).toNat % 4 = 0) (h : exec (.sw rt rs imm) s = .next t) :
    t.wordAt (effectiveAddress (s.reg rs) imm) = s.reg rt := by
  rw [exec_sw_of_aligned ha] at h
  cases h
  exact loadWord_storeWord_same _ _ _ _

/-- Settles O28: aligned, `sw` replaces memory by the stored one; misaligned, it is a halt. -/
theorem swStoresAlignedWord : Obligations.SwStoresAlignedWord := by
  intro rt rs imm s ea hea
  rw [← effectiveAddress_eq_word] at hea
  subst hea
  refine ⟨fun h => ?_, fun h => ⟨_, exec_sw_of_misaligned h, haltWith_haltedFor s _ _, rfl, rfl⟩⟩
  exact ⟨_, exec_sw_of_aligned h, setMem_advance_completed s _,
    wordAt_of_exec_sw h (exec_sw_of_aligned h), fun _ => readByte_storeWord_of_not_mem h⟩

/-- Settles O29: the load reads the four bytes the store left, which are the stored word. -/
theorem storeThenLoadReturnsValue : Obligations.StoreThenLoadReturnsValue := by
  intro rt rs rd rb imm imm' s t u ha hstore hea hbytes
  rw [exec_lw_of_aligned (by rw [hea]; exact ha), hea, wordAt_congr ha hbytes, wordAt_of_exec_sw ha hstore]
  exact writeBack_completed rd _ u

theorem fetch_of_inText {s : State} (hpc : s.pc.toNat % 4 = 0)
    (hin : Config.textBase ≤ s.pc.toNat ∧ s.pc.toNat < Config.textBase + 4 * s.textWords) :
    s.fetch = .ok (s.wordAt s.pc) :=
  (if_pos ((aligned_iff s.pc).2 hpc)).trans (if_pos ((inText_iff s).2 hin))

/-- Settles O33: the store keeps the text extent, so the fetch finds the address in or past the text as it was, and in
it reads what the store left. -/
theorem storeIsSeenByFetch : Obligations.StoreIsSeenByFetch := by
  rintro rt rs imm s t ea rfl ha hstore
  rw [← (exec_shape_of_eq hstore).textWords]
  refine ⟨fun hin => ?_, fun hout => fetch_of_outsideText ha (.inr hout)⟩
  exact (fetch_of_inText ha hin).trans (congrArg _ (wordAt_of_exec_sw (t := t) ha hstore))

/-! ### Byte order and the canonical form -/

/-- Settles O30: a store replaces the words of one base, in either byte order. -/
theorem byteOrderIsUnobservable : Obligations.ByteOrderIsUnobservable := by
  intro o o' m m' h a v b
  rw [loadWord_storeWord, loadWord_storeWord, h b]

/-- Below its first entry a canonical memory reads as unlisted. -/
theorem readByte_of_lt {low a : Nat} {m : Memory} (hm : Memory.wfFrom low m = true) (ha : a < low) :
    Memory.readByte m a = Config.unlistedByte := by
  induction m generalizing low with
  | nil => rfl
  | cons c m ih =>
    obtain ⟨b, v⟩ := c
    obtain ⟨hlow, _, _, htail⟩ := (wfFrom_cons ..).1 hm
    rw [readByte_cons, if_neg (by omega)]
    exact ih htail (by omega)

/-- Outside the address space a canonical memory reads as unlisted. -/
theorem readByte_of_addressSpace_le {low a : Nat} {m : Memory} (hm : Memory.wfFrom low m = true)
    (ha : Config.addressSpace ≤ a) : Memory.readByte m a = Config.unlistedByte := by
  induction m generalizing low with
  | nil => rfl
  | cons c m ih =>
    obtain ⟨b, v⟩ := c
    obtain ⟨_, hb, _, htail⟩ := (wfFrom_cons ..).1 hm
    rw [readByte_cons, if_neg (by omega)]
    exact ih htail

/-- Two canonical memories differ at an entry of one that stands below every entry of the other. -/
theorem readByte_head_ne {low b a : Nat} {v : Byte} {m m' : Memory} (hm : Memory.wfFrom low ((a, v) :: m) = true)
    (hm' : Memory.wfFrom b m' = true) (h : a < b) : Memory.readByte ((a, v) :: m) a ≠ Memory.readByte m' a := by
  obtain ⟨_, _, hv, _⟩ := (wfFrom_cons ..).1 hm
  rw [readByte_of_lt hm' h, readByte_cons, if_pos rfl]
  exact hv

/-- A canonical memory's tail reads as the memory itself, but at the head's address as unlisted. -/
theorem readByte_tail {low a : Nat} {v : Byte} {m : Memory} (hm : Memory.wfFrom low ((a, v) :: m) = true) (x : Nat) :
    Memory.readByte m x = if x = a then Config.unlistedByte else Memory.readByte ((a, v) :: m) x := by
  obtain ⟨_, _, _, htail⟩ := (wfFrom_cons ..).1 hm
  split
  · next hx => exact readByte_of_lt htail (by omega)
  · next hx => rw [readByte_cons, if_neg hx]

/-- Canonical memories are equal when their bytes are. -/
theorem eq_of_readByte_eq {low low' : Nat} {m m' : Memory} (hm : Memory.wfFrom low m = true)
    (hm' : Memory.wfFrom low' m' = true) (h : ∀ a, Memory.readByte m a = Memory.readByte m' a) : m = m' := by
  induction m generalizing low low' m' with
  | nil =>
    cases m' with
    | nil => rfl
    | cons c m' => exact absurd (h c.1).symm (readByte_head_ne hm' (b := c.1 + 1) rfl (by omega))
  | cons c m ih =>
    obtain ⟨a, v⟩ := c
    cases m' with
    | nil => exact absurd (h a) (readByte_head_ne hm (b := a + 1) rfl (by omega))
    | cons c' m' =>
      obtain ⟨b, u⟩ := c'
      obtain ⟨_, ha, hv, htail⟩ := (wfFrom_cons ..).1 hm
      obtain ⟨_, hb, hu, htail'⟩ := (wfFrom_cons ..).1 hm'
      have hab : ¬a < b := fun hlt =>
        readByte_head_ne hm ((wfFrom_cons ..).2 ⟨le_refl b, hb, hu, htail'⟩) hlt (h a)
      have hba : ¬b < a := fun hlt =>
        readByte_head_ne hm' ((wfFrom_cons ..).2 ⟨le_refl a, ha, hv, htail⟩) hlt (h b).symm
      obtain rfl : a = b := by omega
      have hvu : v = u := by simpa [readByte_cons] using h a
      rw [hvu, ih htail htail' fun x => by rw [readByte_tail hm, readByte_tail hm', h x]]

/-- A loaded word's bytes are the ones it was loaded from. -/
theorem byteOfWord_loadWord (o : ByteOrder) (m : Memory) (a : Word) {k : Nat} (hk : k < 4) :
    byteOfWord o (Memory.loadWord o m a) k = Memory.readByte m (wordBase a + k) := by
  cases o <;> interval_cases k
  all_goals
    unfold byteOfWord Memory.loadWord wordOfBytes
    simp (disch := decide) only [extract_low, extract_high]
    exact BitVec.extractLsb'_eq_self

theorem toNat_word_of_lt {n : Nat} (h : n < Config.addressSpace) : (word n).toNat = n :=
  (BitVec.toNat_ofNat n 32).trans (Nat.mod_eq_of_lt h)

theorem readByte_eq_of_loadWord_eq {m m' : Memory} {a : Nat} (ha : a < Config.addressSpace)
    (h : Memory.loadWord Config.byteOrder m (word a) = Memory.loadWord Config.byteOrder m' (word a)) :
    Memory.readByte m a = Memory.readByte m' a := by
  have hk : a % 4 < 4 := Nat.mod_lt a (by decide)
  have hbase : wordBase (word a) + a % 4 = a := by
    rw [wordBase_eq, toNat_word_of_lt ha]
    omega
  rw [← hbase, ← byteOfWord_loadWord Config.byteOrder m _ hk, h, byteOfWord_loadWord _ _ _ hk]

/-- Settles O31: canonical memories with the same words have the same bytes in the address space, and outside it every
byte is unlisted in both. -/
theorem canonicalMemoryIsItsWords : Obligations.CanonicalMemoryIsItsWords := by
  intro m m' hm hm' h
  refine eq_of_readByte_eq hm hm' fun a => ?_
  by_cases ha : a < Config.addressSpace
  · exact readByte_eq_of_loadWord_eq ha (h (word a))
  · rw [readByte_of_addressSpace_le hm (by omega), readByte_of_addressSpace_le hm' (by omega)]

end Sys2Proof.Machine
end

section
/-! SUPPORT. The proof that the reference partition's cycle is the step (30_encoding.md R74, 40_cycle.md R87; D23,
D24). -/

namespace Sys2Proof.Machine

/-- The partition's adder computes the effective address (R74, R122). -/
theorem alu_add_simm (base : Word) (imm : BitVec 16) : alu .add base (simm imm) = effectiveAddress base imm := rfl

/-- The control row of a mnemonic makes the ports do what `exec` does with the operands read from the same word. -/
theorem exec_read_eq_datapathCycle {s : State} {m : Mnemonic}
    (hd : decode s.instrWord = .instr (m.read s.instrWord)) :
    exec (m.read s.instrWord) s = .next (datapathCycle s.instrWord s) := by
  cases m <;> simp only [Mnemonic.read] at hd ⊢
  case add | sub | and | or | xor | nor | slt | sll | addi =>
    simp [datapathCycle, hd, controlOf, Control.idle, Control.aluRow, aluInputA, aluInputB, aluOutput, writeAddress,
      writeData, nextPc, hiLoPort, writeBack_eq, exec, execAdd, execSub, execAnd, execOr, execXor, execNor, execSlt,
      execSll, execAddi, aluRegReg]
  case mflo =>
    simp [datapathCycle, hd, controlOf, Control.idle, writeAddress, writeData, nextPc, hiLoPort, writeBack_eq, exec,
      execMflo]
  case mult =>
    simp [datapathCycle, hd, controlOf, Control.idle, aluInputA, aluInputB, aluOutput, nextPc, hiLoPort, exec, execMult,
      State.advance]
  case j | jr | jal =>
    simp [datapathCycle, hd, controlOf, Control.idle, writeAddress, writeData, nextPc, hiLoPort, exec, execJ, execJr,
      execJal, redirect_eq]
  case beq | bne =>
    cases heq : aluEq (s.reg (rsField s.instrWord)) (s.reg (rtField s.instrWord)) <;>
      simp [datapathCycle, hd, controlOf, Control.idle, aluInputA, aluInputB, nextPc, hiLoPort, exec, execBeq, execBne,
        redirect_eq, heq]
  case div =>
    by_cases hz : s.reg (rtField s.instrWord) = 0
    · rw [exec_div_of_divisor_eq_zero hz]
      simp [datapathCycle, hd, controlOf, Control.idle, aluInputB, hz, State.haltInstr]
    · rw [exec_div_of_divisor_ne_zero hz]
      simp [datapathCycle, hd, controlOf, Control.idle, aluInputA, aluInputB, nextPc, hiLoPort, State.advance,
        Config.divRounding]
      exact fun h => absurd h hz
  case lw =>
    by_cases ha : (effectiveAddress (s.reg (rsField s.instrWord)) (immField s.instrWord)).toNat % 4 = 0
    · rw [exec_lw_of_aligned ha, writeBack_eq]
      simp [datapathCycle, hd, controlOf, Control.idle, Control.aluRow, aluInputA, aluInputB, aluOutput, writeAddress,
        writeData, nextPc, hiLoPort, alu_add_simm, (aligned_iff _).2 ha, State.wordAt]
    · rw [exec_lw_of_misaligned ha]
      simp [datapathCycle, hd, controlOf, Control.idle, Control.aluRow, aluInputA, aluInputB, aluOutput, alu_add_simm,
        mt (aligned_iff _).1 ha, State.haltInstr]
  case sw =>
    by_cases ha : (effectiveAddress (s.reg (rsField s.instrWord)) (immField s.instrWord)).toNat % 4 = 0
    · rw [exec_sw_of_aligned ha]
      simp [datapathCycle, hd, controlOf, Control.idle, aluInputA, aluInputB, aluOutput, nextPc, hiLoPort, alu_add_simm,
        (aligned_iff _).2 ha, State.advance]
    · rw [exec_sw_of_misaligned ha]
      simp [datapathCycle, hd, controlOf, Control.idle, aluInputA, aluInputB, aluOutput, alu_add_simm,
        mt (aligned_iff _).1 ha, State.haltInstr]

/-- Settles O44: an unsupported word halts through `decErr`; any other one is executed with the operands the partition
reads from the word. -/
theorem datapathCycleIsStep : Obligations.DatapathCycleIsStep := by
  rintro s w hw
  obtain rfl : s.instrWord = w := hw.word
  cases hd : decode s.instrWord with
  | unsupported v =>
    rw [hw.step_of_unsupported hd]
    simp [datapathCycle, hd, controlOf]
  | instr i =>
    obtain ⟨_, hread⟩ := selects_of_decode hd
    rw [hw.step_of_instr hd, ← hread]
    exact exec_read_eq_datapathCycle (by rw [hd, hread])

end Sys2Proof.Machine
end

section
/-! SUPPORT. The proofs about the host: `run`, `load_program`, `dump_memory` and the observation
(70_reset_and_hazards.md R180 to R188). -/

namespace Sys2Proof.Machine

/-! ### run -/

theorem run_succ_of_running {s t : State} (n : Nat) (h : step s = .next t) (ht : t.status = .running) :
    run (n + 1) s = ⟨(run n t).cycles + 1, (run n t).state⟩ := by
  simp only [run, h, ht]

theorem run_succ_of_halting {s t : State} (n : Nat) (h : step s = .next t) (ht : t.status = .halted) :
    run (n + 1) s = ⟨0, t⟩ := by
  simp only [run, h, ht]

/-- A cycle of a run: the machine was HALTED, or its step halts, or its step goes on. -/
theorem run_cases (s : State) :
    s.status = .halted ∨ (∃ t, step s = .next t ∧ t.status = .halted) ∨
      ∃ t, step s = .next t ∧ t.status = .running := by
  cases hs : s.status with
  | halted => exact .inl rfl
  | running =>
    obtain ⟨t, ht, _⟩ := stepExistsExactlyWhenRunning.2 s hs
    cases hstatus : t.status with
    | halted => exact .inr (.inl ⟨t, ht, hstatus⟩)
    | running => exact .inr (.inr ⟨t, ht, hstatus⟩)

/-- Settles O47, by induction on the first budget: a run that has ended HALTED stays where it is. -/
theorem runIsResumable : Obligations.RunIsResumable := by
  intro m n s
  induction m generalizing s with
  | zero => simp [run]
  | succ m ih =>
    rw [Nat.succ_add]
    rcases run_cases s with hs | ⟨t, hstep, ht⟩ | ⟨t, hstep, ht⟩
    · simp [run_of_halted hs]
    · simp [run_succ_of_halting _ hstep ht, run_of_halted ht]
    · simp [run_succ_of_running _ hstep ht, ih t, Nat.add_right_comm]

/-- Settles O48, by induction on the budget. -/
theorem runStopsAtBudgetOrHalt : Obligations.RunStopsAtBudgetOrHalt := by
  intro n s
  induction n generalizing s with
  | zero => simp [run]
  | succ n ih =>
    rcases run_cases s with hs | ⟨t, hstep, ht⟩ | ⟨t, hstep, ht⟩
    · simp [run_of_halted hs, hs]
    · simp [run_succ_of_halting _ hstep ht, ht]
    · simpa [run_succ_of_running _ hstep ht] using ih t

/-! ### load_program -/

theorem wordBase_word {n : Nat} (hn : n < Config.addressSpace) (h4 : n % 4 = 0) : wordBase (word n) = n := by
  rw [wordBase_eq, toNat_word_of_lt hn]
  omega

/-- Bytes outside the words stored one after another keep their values. -/
theorem readByte_storeWords_of_not_mem (m : Memory) (a : Nat) (ws : List Word) (b : Nat) (h4 : a % 4 = 0)
    (hfit : a + 4 * ws.length ≤ Config.addressSpace) (hb : b < a ∨ a + 4 * ws.length ≤ b) :
    Memory.readByte (storeWords m a ws) b = Memory.readByte m b := by
  induction ws generalizing m a with
  | nil => rfl
  | cons w ws ih =>
    rw [List.length_cons] at hfit hb
    rw [storeWords, ih _ (a + 4) (by omega) (by omega) (by omega)]
    rw [readByte_storeWord, wordBase_word (by omega) h4, if_neg (by omega)]

/-- A word read below the words stored is the one that was there. -/
theorem loadWord_storeWords_below (m : Memory) (a : Nat) (ws : List Word) (b : Nat) (h4 : a % 4 = 0) (hb4 : b % 4 = 0)
    (hfit : a + 4 * ws.length ≤ Config.addressSpace) (hb : b + 4 ≤ a) :
    Memory.loadWord Config.byteOrder (storeWords m a ws) (word b) = Memory.loadWord Config.byteOrder m (word b) := by
  unfold Memory.loadWord
  rw [wordBase_word (by omega) hb4]
  repeat rw [readByte_storeWords_of_not_mem m a ws _ h4 hfit (by omega)]

/-- The words stored one after another stand one after another. -/
theorem loadWord_storeWords (m : Memory) (a : Nat) (ws : List Word) (h4 : a % 4 = 0)
    (hfit : a + 4 * ws.length ≤ Config.addressSpace) (k : Nat) (hk : k < ws.length) :
    Memory.loadWord Config.byteOrder (storeWords m a ws) (word (a + 4 * k)) = ws[k] := by
  induction ws generalizing m a k with
  | nil => cases hk
  | cons w ws ih =>
    rw [List.length_cons] at hfit hk
    rw [storeWords]
    cases k with
    | zero =>
      rw [loadWord_storeWords_below _ (a + 4) ws _ (by omega) (by omega) (by omega) (by omega)]
      exact loadWord_storeWord_same _ _ _ _
    | succ k =>
      rw [show a + 4 * (k + 1) = a + 4 + 4 * k by omega, ih _ (a + 4) (by omega) (by omega) k (by omega)]
      rfl

theorem loadProgram_of_fits {words : List Word} (h : Config.textBase + 4 * words.length ≤ Config.addressSpace) :
    loadProgram words = some { State.reset with
      mem := storeWords [] Config.textBase words, textWords := words.length } :=
  if_pos (decide_eq_true h)

theorem loadProgram_of_not_fits {words : List Word} (h : Config.addressSpace < Config.textBase + 4 * words.length) :
    loadProgram words = none :=
  if_neg (by simpa [programFits] using h)

/-- A reset register file with a canonical memory and a text that fits meets the invariant. -/
theorem reset_with_inv {m : Memory} {n : Nat} (hm : Memory.wf m = true)
    (hn : Config.textBase + 4 * n ≤ Config.addressSpace) :
    State.Inv { State.reset with mem := m, textWords := n } where
  zeroCell := rfl
  memory := hm
  text := hn
  cause := resetSatisfiesInvariant.cause
  record := resetSatisfiesInvariant.record
  haltedPc := resetSatisfiesInvariant.haltedPc

theorem reset_reg (r : RegIdx) : State.reset.reg r = 0 := by
  simp [State.reg, State.reset]

/-- Settles O45: the loaded state is the reset one with the words stored from the text base. -/
theorem loadProgramReplacesState : Obligations.LoadProgramReplacesState := by
  intro words
  refine ⟨fun hfit => ?_, loadProgram_of_not_fits⟩
  exact ⟨_, loadProgram_of_fits hfit, reset_reg, rfl, rfl, rfl, rfl, rfl, rfl,
    loadWord_storeWords [] _ words (by decide) hfit,
    fun a ha => readByte_storeWords_of_not_mem [] _ words a (by decide) hfit ha,
    reset_with_inv (storeWords_wf [] _ words rfl) hfit⟩

/-- Settles O46: the empty text ends at its first fetch. -/
theorem powerOnIsEmptyLoad : Obligations.PowerOnIsEmptyLoad := by
  have hload : loadProgram [] = some State.reset := loadProgram_of_fits (by decide)
  refine ⟨hload, fun n => ?_⟩
  have hfetch := fetch_of_outsideText (s := State.reset) (by decide) (.inr (by decide))
  have hrun := run_succ_of_halting n (step_of_fetch_eq_error rfl hfetch) rfl
  rw [hrun]
  exact ⟨rfl, ⟨rfl, rfl⟩, rfl⟩

/-! ### Dumps and the observation -/

theorem add_word (a : Word) (n : Nat) : a + word n = word (a.toNat + n) := by
  apply BitVec.eq_of_toNat_eq
  simp [word]

/-- Settles O50: the dump is a map over the word indices. -/
theorem dumpMemoryReportsWords : Obligations.DumpMemoryReportsWords := by
  intro s address n
  refine ⟨fun ha => ?_, fun ha => if_neg (mt (aligned_iff address).1 ha)⟩
  refine ⟨_, if_pos ((aligned_iff address).2 ha), by simp, fun k hk => ?_⟩
  rw [List.getElem_map, List.getElem_range, add_word]
  rfl

theorem observe_of_halted {s : State} (h : s.status = .halted) :
    observe s = some { record := s.halt, registers := dumpRegisters s, mem := s.mem, pc := s.pc } := by
  simp only [observe, h]

theorem observe_of_running {s : State} (h : s.status = .running) : observe s = none := by
  simp only [observe, h]

/-- Settles O51: a HALTED machine shows the fields of its state, a RUNNING one nothing. -/
theorem observationAtHalt : Obligations.ObservationAtHalt := by
  refine ⟨fun s => ?_, fun s o ho => ?_, rfl⟩
  · cases hs : s.status with
    | running => simp [observe_of_running hs]
    | halted => simp [observe_of_halted hs]
  · cases hs : s.status with
    | running => simp [observe_of_running hs] at ho
    | halted =>
      rw [observe_of_halted hs] at ho
      cases ho
      exact ⟨rfl, dumpRegisters_x_getElem s, rfl, rfl, rfl, rfl⟩

end Sys2Proof.Machine
end
